-- ==== Sys2Proof/Word.lean ====
section
/-! DEFINITION. The two word types of the CORE (spec/00_scope.md R5). -/

namespace Sys2Proof

/-- A Word: "a 12-bit unsigned quantity" (R5 `WORD_BITS`). Every register but `p`, every memory cell and every
instruction is one. Bit 0 is the least significant bit, bit 11 the most significant (R6). -/
abbrev Word := BitVec 12

/-- An address: the width of `p` and of every memory index (R5 `ADDR_BITS`, R21, R42). Arithmetic on it is
modulo 2048. -/
abbrev Addr := BitVec 11

end Sys2Proof
end

