-- ==== Sys2Proof/Syntax.lean ====
section
/-! DEFINITION. The instructions, one constructor per row of spec/opcode_table.json (spec/30_encoding.md R64). No OP-format
instruction has an operand field: its operands are the implied registers (R63, R26), and the unused bits 7:0 are no part
of the decoded instruction (R63, R66; notes/assumptions/5.md). -/

namespace Sys2Proof

/-- A decoded instruction: the results of `decode` in R66. -/
inductive Instr where
  /-- IMM (R100): the immediate load, with its value already sign-extended to 12 bits (R66 `Imm(sext_12(i[10:0]))`). -/
  | imm (v : Word)
  /-- JUMP (R110), opcode 0. -/
  | jump
  /-- SUB (R120), opcode 1. -/
  | sub
  /-- NAND (R121), opcode 2. -/
  | nand
  /-- FETCH (R140), opcode 3. -/
  | fetch
  /-- STORE (R141), opcode 4. -/
  | store
  /-- NOP (R122), opcode 5. -/
  | nop
  /-- INVALID6 (R161): `Invalid(6)`, opcode 6. -/
  | invalid6
  /-- INVALID7 (R161): `Invalid(7)`, opcode 7. -/
  | invalid7
deriving DecidableEq, Repr

end Sys2Proof
end

