-- ==== Sys2Proof/WellFormed.lean ====
section
/-! DEFINITION. Which instructions an instruction word can stand for. -/

namespace Sys2Proof

/-- The immediate is 11 bits wide with sign bit 10, so bit 11 of its sign-extended value repeats bit 10: "The words
0x400-0xBFF cannot be produced by an immediate" (R65). The other instructions carry no operand and have no check. -/
def Instr.wf : Instr → Bool
  | .imm v => v.getLsbD 11 == v.getLsbD 10
  | .jump => true
  | .sub => true
  | .nand => true
  | .fetch => true
  | .store => true
  | .nop => true
  | .invalid6 => true
  | .invalid7 => true

end Sys2Proof
end

