-- ==== Sys2Proof/Decode.lean ====
section
/-! DEFINITION. The decoder (the source's Codec, spec/30_encoding.md R60-R68) and, after it, the encoder (R62-R64, R69).
The decoder is total on the 4096 words and refuses none of them: an Invalid word is a decoded result, and the fault comes
when it is executed (R66, R67, conflict C8). -/

namespace Sys2Proof

/-! ### The fields of an instruction word -/

/-- R61: `i[11]`, the format selector; set means format IMM. -/
def immFlag (w : Word) : Bool := w.getLsbD 11

/-- R63: `i[10:8]`, the opcode of an OP-format word. -/
def opField (w : Word) : BitVec 3 := w.extractLsb' 8 3

/-- R62: `i[10:0]`, the immediate field of an IMM-format word. -/
def immField (w : Word) : BitVec 11 := w.extractLsb' 0 11

/-- R65 and R8 `sext_12`: an 11-bit field widened to 12 bits by repeating its sign bit, bit 10. -/
def sext12 (v : BitVec 11) : Word := v.signExtend 12

/-! ### The decoder -/

/-- R64: the opcode map of format OP. -/
def decodeOp (op : BitVec 3) : Instr :=
  match op with
  | 0 => .jump
  | 1 => .sub
  | 2 => .nand
  | 3 => .fetch
  | 4 => .store
  | 5 => .nop
  | 6 => .invalid6
  | 7 => .invalid7

/-- R66: the decoder, a total function of the fetched word alone (R60). -/
def decode (w : Word) : Instr :=
  if immFlag w then .imm (sext12 (immField w)) else decodeOp (opField w)

/-- The decoder on a word numbered as spec/opcode_table.json numbers its bits: `w` is an instruction of `nbits` bits
(12 in whole bytes is 16), all bits above them 0. An instruction is one 12-bit word (R60), so a number that needs more
than 12 bits is none (notes/assumptions/6.md). -/
def decodeTableWord (nbits w : Nat) : Option Instr :=
  if w % 2 ^ nbits < 4096 then some (decode (BitVec.ofNat 12 (w % 2 ^ nbits))) else none

/-! ### The encoder -/

/-- The word of an instruction whose unused bits 7:0, if it has them, are `u`: `1vvvvvvvvvvv` for format IMM (R62), `0`,
the opcode and `u` for format OP (R63, R64). The decoder ignores `u`. -/
def encodeWith (u : BitVec 8) (i : Instr) : Word :=
  match i with
  | .imm v => 1#1 ++ v.extractLsb' 0 11
  | .jump => 0#4 ++ u
  | .sub => 1#4 ++ u
  | .nand => 2#4 ++ u
  | .fetch => 3#4 ++ u
  | .store => 4#4 ++ u
  | .nop => 5#4 ++ u
  | .invalid6 => 6#4 ++ u
  | .invalid7 => 7#4 ++ u

/-- The word the spec's own notation gives an instruction: zeros in the unused bits (R69, D14). -/
def encode (i : Instr) : Word := encodeWith 0#8 i

end Sys2Proof
end

