-- ==== Sys2Proof/Config.lean ====
section
/-! DEFINITION. What is fixed for the machine. The ISA leaves no parameter to an implementation (spec/00_scope.md R5)
and no value free (spec/93_implementation_defined.md U1-U10), so these are all constants with a value the spec states. -/

namespace Sys2Proof.Config

/-- R5 `MEM_WORDS`: the number of memory cells; their addresses are 0..2047 (R40, R47). -/
abbrev memWords : Nat := 2048

/-- R181: "Execution starts at address 0". -/
abbrev resetVector : Addr := 0#11

/-- R31: "At launch every register is zero". -/
abbrev resetWord : Word := 0#12

/-- What a cell reads as that neither the image nor a Store has written (R48 "zero-initialized"; R50 "If there was
none, it returns 0"). -/
abbrev unlistedWord : Word := 0#12

/-- The numeric code of the one exception cause (R160; the spec's own number, D4). -/
abbrev invalidOpcodeCode : Nat := 1

end Sys2Proof.Config
end

