-- ==== Sys2Proof/Machine/State.lean ====
section
/-! DEFINITION. The state of the CORE: the tuple `(p, a, x, i, M, run)` "and nothing else" (spec/10_state.md R20). The
machine has no flags (R29), no control or status registers (R30), no register file (R26), and Jump's scratch `tmp` is no
state (R27, conflict C4). The observation events are outputs, not state (R8, R87; Machine/Events.lean). -/

namespace Sys2Proof.Machine

/-- The causes of a synchronous exception: the complete list (R160). Its numeric code is `Cause.code`
(Machine/Ops.lean). -/
inductive Cause where
  /-- InvalidOpcode, raised by executing a word 0x600-0x7FF (R160, R161). -/
  | invalidOpcode
deriving DecidableEq, Repr

/-- The fault record `info = {cause, opcode, word, addr}` of R162. -/
structure FaultInfo where
  cause : Cause
  /-- `i[10:8]`, 6 or 7. -/
  opcode : BitVec 3
  /-- The fetched word. -/
  word : Word
  /-- The address the word was fetched from. -/
  addr : Addr
deriving DecidableEq, Repr

/-- The run state `run` of the sequencer (R28; D3). -/
inductive RunState where
  /-- `RUN`: the next step may be taken. -/
  | running
  /-- `FAULTED(info)`: an Invalid opcode was executed. No further step is taken until reset. -/
  | faulted (info : FaultInfo)
deriving DecidableEq, Repr

/-- One memory cell at its address. The smallest addressable unit is the 12-bit word; memory has no bytes (R40, R44;
notes/assumptions/2.md). -/
abbrev Cell := Nat × Word

/-- The memory array `M` of 2048 words (R40) as its listed cells: addresses strictly rising, no cell equal to what an
unlisted address reads as (`Memory.wf`, Machine/Ops.lean). -/
abbrev Memory := List Cell

structure State where
  /-- Program counter (R21). -/
  p : Addr
  /-- Accumulator (R22). -/
  a : Word
  /-- Secondary operand register (R23). -/
  x : Word
  /-- Instruction register: the word fetched in the last step (R24). -/
  i : Word
  /-- Memory `M` (R40). -/
  mem : Memory
  /-- Run state (R28). -/
  run : RunState
deriving DecidableEq, Repr

/-- Reasons a step could stop with no next state. There is NONE, and nothing raises one: "no out-of-bounds access or
arithmetic exception can occur" (R160), and the one exception of the CORE, InvalidOpcode, has an effect that the spec
describes, so it is a next state whose `run` is `faulted` (R161; notes/assumptions/1.md). That is safe: the type itself
says that no step of this model stops. -/
inductive Fault
deriving DecidableEq, Repr

/-- Reasons the model gives an instruction no meaning. -/
inductive Refusal where
  /-- Raised only by an arm of `exec` for an instruction that has no meaning yet; no arm does (safe). -/
  | notModelled (mnemonic : String)
deriving DecidableEq, Repr

/-- What a meaning and a step answer with. -/
abbrev Result := Host.Outcome State Fault Refusal

/-- The machine right after a reset with an empty image (R31, R180): every register zero, every cell zero, RUN. The spec
states every one of these values (R31 "No part of the state is unspecified after reset"). A program comes in as the image
of a reset, `State.resetWith` (Machine/Ops.lean; notes/assumptions/3.md). -/
def State.reset : State where
  p := Config.resetVector
  a := Config.resetWord
  x := Config.resetWord
  i := Config.resetWord
  mem := []
  run := .running

end Sys2Proof.Machine
end

