-- ==== Sys2Proof/Machine/Ops.lean ====
section
/-! DEFINITION. The named operations over memory and the registers: `MemRead` and `MemWrite` (spec/20_memory.md R43), the
image load (R48), the fetch (spec/40_sequencer.md R83), taking the one exception (spec/60_exceptions.md R161) and reset
(spec/70_reset_and_hazards.md R180), which is the only way out of it. -/

namespace Sys2Proof.Machine

/-! ### Memory -/

/-- The word in the cell numbered `k`; a cell that is not listed reads as zero (R50). -/
def Memory.readCell : Memory → Nat → Word
  | [], _ => Config.unlistedWord
  | (j, w) :: rest, k => if j = k then w else Memory.readCell rest k

/-- R43 `MemRead(addr, 1)`. Every 11-bit address is a cell, so no read faults (R42). -/
def Memory.read (m : Memory) (addr : Addr) : Word := Memory.readCell m addr.toNat

/-- List the cell `k` with the word `v` in front of `m`, or leave it unlisted if that is how it reads anyway. -/
def Memory.cons (k : Nat) (v : Word) (m : Memory) : Memory :=
  if v = Config.unlistedWord then m else (k, v) :: m

/-- Put the cell `k` with the word `v` at its place among rising addresses. -/
def Memory.insert (k : Nat) (v : Word) : Memory → Memory
  | [] => Memory.cons k v []
  | (j, w) :: rest =>
    if k < j then Memory.cons k v ((j, w) :: rest) else (j, w) :: Memory.insert k v rest

/-- `m` without the cell `k`. -/
def Memory.erase (m : Memory) (k : Nat) : Memory := m.filter (fun c => c.1 ≠ k)

/-- R43 `MemWrite(addr, 1, v)`: "sets `M[addr]` to the 12-bit value `v` and changes no other cell". -/
def Memory.write (m : Memory) (addr : Addr) (v : Word) : Memory :=
  Memory.insert addr.toNat v (Memory.erase m addr.toNat)

/-- The one canonical form: addresses strictly rising and inside the address space, no cell listed with the word an
unlisted cell reads as. So equal memories are equal lists. -/
abbrev Memory.wf (m : Memory) : Prop :=
  m.Pairwise (fun c d => c.1 < d.1) ∧ ∀ c ∈ m, c.1 < Config.memWords ∧ c.2 ≠ Config.unlistedWord

/-- The cells `k, k+1, …` filled with the words of an image, up to the end of memory. -/
def Memory.fill (k : Nat) : List Word → Memory
  | [] => []
  | w :: ws => if k < Config.memWords then Memory.cons k w (Memory.fill (k + 1) ws) else []

/-- R48: memory after the image load. "The i-th integer initializes Memory[i]", missing words leave zeros, words beyond
the 2048th are ignored. -/
def Memory.ofImage (image : List Word) : Memory := Memory.fill 0 image

/-- R48, D6: the image's integers reduced to 12-bit words, "taken modulo the word's representable range when stored":
`w[k] mod 4096`, the mathematical modulus. -/
def reduceImage (ws : List Int) : List Word := ws.map (BitVec.ofInt 12)

/-! ### The registers

One write operation per register. A write truncates to the register's width (R25), which here is the type. -/

def State.setP (s : State) (v : Addr) : State := { s with p := v }
def State.setA (s : State) (v : Word) : State := { s with a := v }
def State.setX (s : State) (v : Word) : State := { s with x := v }
def State.setI (s : State) (v : Word) : State := { s with i := v }
def State.setMem (s : State) (m : Memory) : State := { s with mem := m }
def State.setRun (s : State) (r : RunState) : State := { s with run := r }

/-- R43 `MemRead` on the state's memory. -/
def State.memRead (s : State) (addr : Addr) : Word := s.mem.read addr

/-- R43 `MemWrite` on the state's memory. -/
def State.memWrite (s : State) (addr : Addr) (v : Word) : State := s.setMem (s.mem.write addr v)

/-! ### The fetch, the exception, reset -/

/-- R83: `i <- MemRead(p, 1)`, then `p <- (p + 1) mod 2048`. Address 0 follows 2047 (R21). -/
def fetch (s : State) : State := (s.setI (s.memRead s.p)).setP (s.p + 1#11)

/-- R160: the cause's numeric code. -/
def Cause.code : Cause → Nat
  | .invalidOpcode => Config.invalidOpcodeCode

/-- R161, R162: the fault record made after the fetch: `{cause: 1, opcode: k, word: i, addr: (p - 1) mod 2048}`. -/
def invalidOpcodeInfo (k : BitVec 3) (s : State) : FaultInfo where
  cause := .invalidOpcode
  opcode := k
  word := s.i
  addr := s.p - 1#11

/-- Taking the exception (R161): `run <- FAULTED(info)`; `a`, `x`, `M` unchanged; `p` and `i` keep their post-fetch values.
Nothing is saved elsewhere, no mode changes and control goes to no handler (R163). -/
def raiseInvalidOpcode (k : BitVec 3) (s : State) : State := s.setRun (.faulted (invalidOpcodeInfo k s))

/-- R180: reset. It re-initialises every register and all of memory, whatever the state before (D7), and is the only way
out of FAULTED; there is no return from the exception (R164). -/
def State.resetWith (image : List Word) : State := State.reset.setMem (Memory.ofImage image)

end Sys2Proof.Machine
end

