-- ==== Sys2Proof/Machine/Operands.lean ====
section
/-! DEFINITION. The operand forms. No instruction names a register or has an addressing field: operands are implied by the
opcode (spec/10_state.md R26), and the one addressing mode is register-indirect through `a` (spec/44_load_store.md). -/

namespace Sys2Proof.Machine

/-- `v mod 2048` = `v[10:0]`: "addresses are taken from the low 11 bits of a value" (R42). -/
def lowAddr (v : Word) : Addr := v.extractLsb' 0 11

/-- R8 `zext_12` of an address. -/
def zext12 (addr : Addr) : Word := addr.zeroExtend 12

/-- R42: the address of a Fetch or a Store, `a mod 2048`; `a[11]` is ignored. -/
def dataAddr (s : State) : Addr := lowAddr s.a

/-- R110: a taken Jump's target, `a mod 2048`. -/
def jumpTarget (s : State) : Addr := lowAddr s.a

/-- R110, R85: a taken Jump's link value, the already advanced `p`, zero-extended. -/
def linkValue (s : State) : Word := zext12 s.p

end Sys2Proof.Machine
end

