-- ==== Sys2Proof/Machine/Flags.lean ====
section
/-! DEFINITION. The machine has no flags and no condition codes (spec/10_state.md R29). Its one condition is computed
from `x` where it is used: Jump tests `x[11]`. -/

namespace Sys2Proof.Machine

/-- Bit 11 of a word: "whether `x` is negative in 12-bit two's complement" (R29, R7). -/
def signBit (v : Word) : Bool := v.getLsbD 11

/-- R110: Jump is suppressed when `x` is negative. -/
def jumpSuppressed (s : State) : Bool := signBit s.x

end Sys2Proof.Machine
end

