-- ==== Sys2Proof/Machine/Alu.lean ====
section
/-! DEFINITION. The ALU operations and NoOp (spec/43_alu.md). -/

namespace Sys2Proof.Machine

/-- The ALU's subtract: `(x - a) mod 4096`, in that operand order (R120). -/
def aluSub (x a : Word) : Word := x - a

/-- The ALU's NAND: `~(a & x) & 0xFFF` (R121); truncated at the write (R25, conflict C1). -/
def aluNand (a x : Word) : Word := ~~~(a &&& x)

/-- SUB (R120): `a <- (x - a) mod 4096`. -/
def execSub (s : State) : Result := .next (s.setA (aluSub s.x s.a))

/-- NAND (R121): `a <- ~(a & x) & 0xFFF`. -/
def execNand (s : State) : Result := .next (s.setA (aluNand s.a s.x))

/-- NOP (R122): "no state change besides the fetch already performed". -/
def execNop (s : State) : Result := .next s

end Sys2Proof.Machine
end

