-- ==== Sys2Proof/Machine/Immediate.lean ====
section
/-! DEFINITION. The immediate load (spec/41_immediate.md). -/

namespace Sys2Proof.Machine

/-- IMM (R100): `x` gets the old `a`, and `a` the sign-extended immediate, as one simultaneous update. -/
def execImm (v : Word) (s : State) : Result := .next ((s.setX s.a).setA v)

end Sys2Proof.Machine
end

