-- ==== Sys2Proof/Machine/Invalid.lean ====
section
/-! DEFINITION. The two Invalid opcodes (spec/60_exceptions.md R161): executing one takes the exception. -/

namespace Sys2Proof.Machine

/-- INVALID6 (R161, `Invalid(6)`): raise InvalidOpcode with opcode 6. -/
def execInvalid6 (s : State) : Result := .next (raiseInvalidOpcode 6#3 s)

/-- INVALID7 (R161, `Invalid(7)`): raise InvalidOpcode with opcode 7. -/
def execInvalid7 (s : State) : Result := .next (raiseInvalidOpcode 7#3 s)

end Sys2Proof.Machine
end

