-- ==== Sys2Proof/Machine/Jump.lean ====
section
/-! DEFINITION. Control transfer (spec/42_jump.md). -/

namespace Sys2Proof.Machine

/-- JUMP (R110): if `x[11] = 1` the jump is suppressed and `a <- x`; else `(a, p) <- (zext_12(p), a mod 2048)`,
simultaneously. `p` is the advanced program counter (R85). -/
def execJump (s : State) : Result :=
  if jumpSuppressed s then .next (s.setA s.x)
  else .next ((s.setP (jumpTarget s)).setA (linkValue s))

end Sys2Proof.Machine
end

