-- ==== Sys2Proof/Machine/LoadStore.lean ====
section
/-! DEFINITION. Memory access (spec/44_load_store.md). -/

namespace Sys2Proof.Machine

/-- FETCH (R140): `a <- MemRead(a mod 2048, 1)`. -/
def execFetch (s : State) : Result := .next (s.setA (s.memRead (dataAddr s)))

/-- STORE (R141): `MemWrite(a mod 2048, 1, x)`. Its StoreEvent is in Machine/Events.lean. -/
def execStore (s : State) : Result := .next (s.memWrite (dataAddr s) s.x)

end Sys2Proof.Machine
end

