-- ==== Sys2Proof/Machine/Dispatch.lean ====
section
/-! DEFINITION. The execute part of a step (spec/40_sequencer.md R81): one arm per instruction. It acts on the state
after the fetch (R85). -/

namespace Sys2Proof.Machine

def exec (i : Instr) (s : State) : Host.Outcome State Fault Refusal :=
  match i with
  | .imm v => Sys2Proof.Machine.execImm v s
  | .jump => Sys2Proof.Machine.execJump s
  | .sub => Sys2Proof.Machine.execSub s
  | .nand => Sys2Proof.Machine.execNand s
  | .fetch => Sys2Proof.Machine.execFetch s
  | .store => Sys2Proof.Machine.execStore s
  | .nop => Sys2Proof.Machine.execNop s
  | .invalid6 => Sys2Proof.Machine.execInvalid6 s
  | .invalid7 => Sys2Proof.Machine.execInvalid7 s

end Sys2Proof.Machine
end

