-- ==== Sys2Proof/Machine/Sequencer.lean ====
section
/-! DEFINITION. The parts of a step (spec/40_sequencer.md): what a step request does in RUN, and in FAULTED. -/

namespace Sys2Proof.Machine

/-- R81: in RUN, fetch, then decode the fetched word, then execute on the state after the fetch. -/
def oneStep (s : State) : Result := exec (decode (fetch s).i) (fetch s)

/-- R82: in FAULTED "a `step` request has no effect". -/
def ignoredStep (s : State) : Result := .next s

/-- Store the instruction word `w`, of `nbits` bits, where the next step fetches, and let that step be taken: a step
request is ignored in FAULTED (R82), so `run` is set to RUN (notes/assumptions/6.md). -/
def placeWord (s : State) (nbits w : Nat) : State :=
  (s.memWrite s.p (BitVec.ofNat 12 (w % 2 ^ nbits))).setRun .running

end Sys2Proof.Machine
end

