-- ==== Sys2Proof/Machine/Step.lean ====
section
/-! DEFINITION. One step of the machine (spec/40_sequencer.md R81, R82). -/

namespace Sys2Proof.Machine

/-- One `step` request (R80): a whole step in RUN, nothing in FAULTED. -/
def step (s : State) : Host.Outcome State Fault Refusal :=
  match s.run with
  | .running => oneStep s
  | .faulted _ => ignoredStep s

/-- `s` with the instruction word `w` of `nbits` bits placed so that the next step fetches and runs it. -/
def State.withFetchWord (s : State) (nbits w : Nat) : State := placeWord s nbits w

end Sys2Proof.Machine
end

