-- ==== Sys2Proof/Machine/Events.lean ====
section
/-! DEFINITION. The observation outputs of a step (spec/40_sequencer.md R80, R87). Events "change no state" (R8), so they
are functions of the state a step starts from and stand beside the step, not in State (notes/assumptions/4.md). -/

namespace Sys2Proof.Machine

/-- The two events of R87. -/
inductive Event where
  /-- `FetchEvent(p)`, with `p` "before the fetch increments it". -/
  | fetch (p : Addr)
  /-- `StoreEvent(addr, v)`: "the destination address and the value written". -/
  | store (addr : Addr) (v : Word)
deriving DecidableEq, Repr

/-- R83: a fetch from `s` reports `p` as it stands before it advances. -/
def fetchEvent (s : State) : Event := .fetch s.p

/-- What the execute part emits (R87): Store alone emits an event, after its write. -/
def execEvents (i : Instr) (s : State) : List Event :=
  match i with
  | .imm _ => []
  | .jump => []
  | .sub => []
  | .nand => []
  | .fetch => []
  | .store => [.store (dataAddr s) s.x]
  | .nop => []
  | .invalid6 => []
  | .invalid7 => []

/-- The events of one step request, in order: none in FAULTED (R82), else the fetch's, then the execute part's. -/
def stepEvents (s : State) : List Event :=
  match s.run with
  | .running => fetchEvent s :: execEvents (decode (fetch s).i) (fetch s)
  | .faulted _ => []

end Sys2Proof.Machine
end

