-- ==== Sys2Proof/Machine/Block.lean ====
section
/-! DEFINITION. The block's interface (spec/40_sequencer.md R80): the host's requests, `reset` with an image and `step`,
and what the block does and emits on each. Its other outputs, `run` and `state`, are the state's own fields, read between
requests (R88). -/

namespace Sys2Proof.Machine

/-- The block's two input events. -/
inductive Request where
  /-- `reset`, which takes the `image` port's words (R180). -/
  | reset (image : List Word)
  /-- `step`: perform exactly one step; ignored in FAULTED. -/
  | step
deriving DecidableEq, Repr

/-- What one request does to the state. -/
def Request.apply (r : Request) (s : State) : Result :=
  match r with
  | .reset image => .next (State.resetWith image)
  | .step => Sys2Proof.Machine.step s

/-- What the block emits on one request (R87: a step's events; "No other step emits an event"). -/
def Request.events (r : Request) (s : State) : List Event :=
  match r with
  | .reset _ => []
  | .step => stepEvents s

/-- The requests of a host, one after another. -/
def runRequests : List Request → State → Result
  | [], s => .next s
  | r :: rs, s =>
    match r.apply s with
    | .next t => runRequests rs t
    | .fault f => .fault f
    | .refused f => .refused f

/-- The event trace of a host's requests, in order. -/
def traceRequests : List Request → State → List Event
  | [], _ => []
  | r :: rs, s =>
    r.events s ++
      match r.apply s with
      | .next t => traceRequests rs t
      | .fault _ => []
      | .refused _ => []

/-- `n` step requests and nothing else: the only run a program itself takes part in (R88). -/
def runSteps (n : Nat) (s : State) : Result := runRequests (List.replicate n .step) s

/-- The event trace of `n` step requests. -/
def traceSteps (n : Nat) (s : State) : List Event := traceRequests (List.replicate n .step) s

end Sys2Proof.Machine
end

