-- ==== Sys2Proof/Machine/Assembler.lean ====
section
/-! DEFINITION. The spec's own notation for programs (spec/30_encoding.md R69, R70; D9, D14, D17). It is no part of the
hardware (R4 (d)); it says which words the spec's names stand for. Its text (spaces, number bases) is not modelled, and a
label is a number (notes/assumptions/8.md). -/

namespace Sys2Proof.Machine

/-- The operand of `IMM`: an integer or a label (R69). -/
inductive AsmOperand where
  | value (v : Int)
  | label (name : Nat)
deriving DecidableEq, Repr

/-- The mnemonics of R69 and the directive `.word w`. -/
inductive AsmOp where
  | imm (v : AsmOperand)
  | jump
  | sub
  | nand
  | fetch
  | store
  | nop
  | word (w : Nat)
deriving DecidableEq, Repr

/-- A line: an optional `label:` and an operation. Every line is one word. -/
structure AsmLine where
  label : Option Nat
  op : AsmOp
deriving DecidableEq, Repr

/-- The address a label stands for, counting lines from `k`: the first line that carries it. -/
def labelAddr (name : Nat) : Nat → List AsmLine → Option Nat
  | _, [] => none
  | k, l :: ls => if l.label = some name then some k else labelAddr name (k + 1) ls

/-- The value of an operand in the program `prog`: an integer must be in -1024..1023, a label's address in 0..1023. -/
def operandValue (prog : List AsmLine) (v : AsmOperand) : Option Int :=
  match v with
  | .value n => if -1024 ≤ n ∧ n ≤ 1023 then some n else none
  | .label name => (labelAddr name 0 prog).bind fun k => if k ≤ 1023 then some (k : Int) else none

/-- The word of one operation (R69's table): `IMM v` is `0x800 + (v mod 2048)`; the rest have zeros in bits 7:0. -/
def assembleOp (prog : List AsmLine) (op : AsmOp) : Option Word :=
  match op with
  | .imm v => (operandValue prog v).map fun n => 0x800#12 + BitVec.ofInt 12 (n % 2048)
  | .jump => some 0x000#12
  | .sub => some 0x100#12
  | .nand => some 0x200#12
  | .fetch => some 0x300#12
  | .store => some 0x400#12
  | .nop => some 0x500#12
  | .word w => if w ≤ 4095 then some (BitVec.ofNat 12 w) else none

/-- The image of a program, or none if an operand is out of range or a label is missing. -/
def assemble (prog : List AsmLine) : Option (List Word) := prog.mapM fun l => assembleOp prog l.op

/-- The pseudo-instructions of R70. -/
inductive Pseudo where
  | goto (t : Addr)
  | call (t : Addr)
  | brnn (t : Addr)
  | loadm (k : Addr)
  | storem (k : Addr)
  | ret (k : Addr)
deriving DecidableEq, Repr

/-- R70: the `k` of `LOADM`, `STOREM` and `RET` is an `IMM` operand that stands for itself, so it is in 0..1023. -/
def Pseudo.wf : Pseudo → Bool
  | .goto _ => true
  | .call _ => true
  | .brnn _ => true
  | .loadm k => k.toNat ≤ 1023
  | .storem k => k.toNat ≤ 1023
  | .ret k => k.toNat ≤ 1023

/-- R70: the expansions. The operand `t'` is `t` for `t` in 0..1023 and `t - 2048` above, which is `t` read as a signed
11-bit number. -/
def Pseudo.expand : Pseudo → List Instr
  | .goto t => [.imm 0#12, .imm (sext12 t), .jump]
  | .call t => [.imm 0#12, .imm (sext12 t), .jump]
  | .brnn t => [.imm (sext12 t), .jump]
  | .loadm k => [.imm (sext12 k), .fetch]
  | .storem k => [.imm (sext12 k), .store]
  | .ret k => [.imm 0#12, .imm (sext12 k), .fetch, .jump]

end Sys2Proof.Machine
end

