-- ==== Sys2Proof/Safety.lean ====
section
/-! DEFINITION. What counts as a safe run, and the invariant of the machine. FAULTED is a fault outcome and never a
successful end (spec/70_reset_and_hazards.md R183; D3, D16): a safe run is one that stays in RUN. -/

namespace Sys2Proof.Machine

/-- The state is in RUN (R28). -/
def State.isRunning (s : State) : Prop := s.run = .running

/-- The `n` step requests from `s` never meet the fault outcome: before each of them and after the last the machine is in
RUN (R86, R183). -/
def SafeFor (n : Nat) (s : State) : Prop := ∀ k ≤ n, ∃ t, runSteps k s = .next t ∧ t.isRunning

/-- The fault record tells the truth about the state it stands in (R162): `opcode` is 6 or 7 and is `i[10:8]` of an
OP-format word, `word` is `i`, and `addr` is `(p - 1) mod 2048`. In RUN there is no record. -/
def State.recordTrue (s : State) : Prop :=
  match s.run with
  | .running => True
  | .faulted info =>
    (info.opcode = 6#3 ∨ info.opcode = 7#3) ∧ info.opcode = opField s.i ∧ immFlag s.i = false ∧
      info.word = s.i ∧ info.addr = s.p - 1#11

/-- The invariant: memory in its canonical form, and a true fault record. -/
structure State.Inv (s : State) : Prop where
  mem_wf : s.mem.wf
  record_true : s.recordTrue

end Sys2Proof.Machine
end

