-- ==== Sys2Proof/Certificates/Slice0/Obligations.lean ====
section
/-! DEFINITION. The statements about the model, from the numbered rules of the spec. `Sys2Proof.Claims` holds what some of
them are stated with. -/

namespace Sys2Proof.Claims

open Sys2Proof.Machine

/-! ### The step written over plain integers, with the source's masks

R81's pseudocode with every register and cell a natural number, bit tests as divisions and every mask written out. -/

/-- The state vector of R20 over natural numbers; `fault` is the record `(cause, opcode, word, addr)` of FAULTED. -/
structure IntState where
  p : Nat
  a : Nat
  x : Nat
  i : Nat
  M : Nat → Nat
  fault : Option (Nat × Nat × Nat × Nat)

inductive IntEvent where
  | fetch (p : Nat)
  | store (addr v : Nat)

/-- R81, parts 2 and 3: decode and execute on the state after the fetch. -/
def intExecute (f : IntState) : IntState × List IntEvent :=
  if f.i / 2048 = 1 then
    ({ f with x := f.a, a := if f.i / 1024 % 2 = 1 then 2048 + f.i % 2048 else f.i % 2048 }, [])
  else
    match f.i / 256 % 8 with
    | 0 => (if f.x / 2048 = 1 then { f with a := f.x } else { f with a := f.p, p := f.a % 2048 }, [])
    | 1 => ({ f with a := (f.x + 4096 - f.a) % 4096 }, [])
    | 2 => ({ f with a := 4095 - (f.a &&& f.x) }, [])
    | 3 => ({ f with a := f.M (f.a % 2048) }, [])
    | 4 => ({ f with M := fun k => if k = f.a % 2048 then f.x else f.M k }, [.store (f.a % 2048) f.x])
    | 5 => (f, [])
    | k => ({ f with fault := some (1, k, f.i, (f.p + 2047) % 2048) }, [])

/-- R81, R82: a step request. -/
def intStep (s : IntState) : IntState × List IntEvent :=
  match s.fault with
  | some _ => (s, [])
  | none =>
    let r := intExecute { s with i := s.M s.p, p := (s.p + 1) % 2048 }
    (r.1, .fetch s.p :: r.2)

/-- `n` step requests, with all their events. -/
def intRun : Nat → IntState → IntState × List IntEvent
  | 0, s => (s, [])
  | n + 1, s =>
    let r := intStep s
    let q := intRun n r.1
    (q.1, r.2 ++ q.2)

/-- The integers a state of the model stands for; outside the address space there is no cell, written as 0. -/
def intState (s : State) : IntState where
  p := s.p.toNat
  a := s.a.toNat
  x := s.x.toNat
  i := s.i.toNat
  M := fun k => if k < 2048 then (s.mem.read (BitVec.ofNat 11 k)).toNat else 0
  fault :=
    match s.run with
    | .running => none
    | .faulted f => some (f.cause.code, f.opcode.toNat, f.word.toNat, f.addr.toNat)

def intEvent : Event → IntEvent
  | .fetch p => .fetch p.toNat
  | .store k v => .store k.toNat v.toNat

/-! ### Traces and placed instructions -/

/-- The value of the last StoreEvent to the cell `k` in a trace, if there is one. -/
def lastStore (k : Addr) : List Event → Option Word
  | [] => none
  | .fetch _ :: es => lastStore k es
  | .store j v :: es => (lastStore k es).or (if j = k then some v else none)

/-- The cells from `k` on (modulo 2048) hold words that decode to these instructions. -/
def placedAt (m : Memory) : Addr → List Instr → Prop
  | _, [] => True
  | k, i :: is => decode (m.read k) = i ∧ placedAt m (k + 1#11) is

end Sys2Proof.Claims

open Sys2Proof Sys2Proof.Machine Sys2Proof.Claims

/-! ### Reset and the image -/

/-- R31, R180 (with D3, D7): a reset request from any state answers the state whose registers are all zero, whose run
state is RUN and whose cells hold the image's words, zeros where it has none; `State.reset` is the one with no image. -/
def Obligations.ResetInitialisesEverything : Prop :=
  ∀ (image : List Word) (s : State), ∃ t, Request.apply (.reset image) s = .next t ∧
    t.p = 0#11 ∧ t.a = 0#12 ∧ t.x = 0#12 ∧ t.i = 0#12 ∧ t.run = .running ∧
    (∀ k : Addr, t.mem.read k = image.getD k.toNat 0#12) ∧ (image = [] → t = State.reset)

/-- R48 with D6: the integers of an image are reduced modulo 4096 as they are stored, cells past its end are zero, and
its integers past the 2048th are ignored. -/
def Obligations.ImageIntegersStoredModulo4096 : Prop :=
  ∀ (ws : List Int),
    (∀ k : Addr, (((Memory.ofImage (reduceImage ws)).read k).toNat : Int) = ws.getD k.toNat 0 % 4096) ∧
    Memory.ofImage (reduceImage (ws.take 2048)) = Memory.ofImage (reduceImage ws)

/-- R181: the first step after a reset fetches `M[0]`. -/
def Obligations.FirstStepFetchesCellZero : Prop :=
  ∀ image : List Word,
    step (State.resetWith image) =
      exec (decode (image.getD 0 0#12)) { State.resetWith image with i := image.getD 0 0#12, p := 1#11 } ∧
    (stepEvents (State.resetWith image)).head? = some (.fetch 0#11)

/-- R182: after a reset `a = x = 0`, so a JUMP in the first word is taken, to address 0, and links 1. -/
def Obligations.JumpRightAfterResetGoesToZero : Prop :=
  ∀ image : List Word, (image.getD 0 0#12).toNat < 0x100 →
    ∃ t, step (State.resetWith image) = .next t ∧ t.p = 0#11 ∧ t.a = 1#12 ∧ t.x = 0#12 ∧ t.run = .running

/-! ### Encoding -/

/-- R62-R66, R69: decoding the word of a well-formed instruction gives the instruction back, whatever its unused bits; what
the decoder answers is well-formed; and encoding what a word decodes to gives that word back with the unused bits zero. -/
def Obligations.DecodeEncodeRoundTrip : Prop :=
  (∀ (i : Instr) (u : BitVec 8), i.wf = true → decode (encodeWith u i) = i) ∧
  (∀ w : Word, (decode w).wf = true) ∧
  (∀ w : Word, encode (decode w) = if w.getLsbD 11 then w else w &&& 0xF00#12)

/-- R66: each of the 4096 words decodes to the one result its range gives it. -/
def Obligations.DecodeByWordRange : Prop :=
  ∀ w : Word,
    (w.toNat < 0x100 → decode w = .jump) ∧
    (0x100 ≤ w.toNat → w.toNat < 0x200 → decode w = .sub) ∧
    (0x200 ≤ w.toNat → w.toNat < 0x300 → decode w = .nand) ∧
    (0x300 ≤ w.toNat → w.toNat < 0x400 → decode w = .fetch) ∧
    (0x400 ≤ w.toNat → w.toNat < 0x500 → decode w = .store) ∧
    (0x500 ≤ w.toNat → w.toNat < 0x600 → decode w = .nop) ∧
    (0x600 ≤ w.toNat → w.toNat < 0x700 → decode w = .invalid6) ∧
    (0x700 ≤ w.toNat → w.toNat < 0x800 → decode w = .invalid7) ∧
    (0x800 ≤ w.toNat → decode w = .imm (BitVec.signExtend 12 (BitVec.ofNat 11 w.toNat)))

/-- R65: the immediate of a word is its low 11 bits with bit 11 set if bit 10 is; as a signed number it is the field's,
-1024..1023; and the values 0x000-0x3FF and 0xC00-0xFFF, no others, are immediates. -/
def Obligations.ImmediateValueOfWord : Prop :=
  (∀ w : Word, w.getLsbD 11 = true → ∃ v : Word, decode w = .imm v ∧
    v = (if w.getLsbD 10 then 0x800#12 ||| (w &&& 0x7FF#12) else w &&& 0x7FF#12) ∧
    v.toInt = (if w.toNat % 2048 < 1024 then (w.toNat % 2048 : Int) else (w.toNat % 2048 : Int) - 2048)) ∧
  (∀ v : Word, (∃ w : Word, decode w = .imm v) ↔ (v.toNat ≤ 0x3FF ∨ 0xC00 ≤ v.toNat))

/-- R63: two OP-format words with the same opcode field decode to the same instruction, whatever their unused bits. -/
def Obligations.UnusedBitsDoNotDecode : Prop :=
  ∀ w w' : Word, w.getLsbD 11 = false → w'.getLsbD 11 = false → w.extractLsb' 8 3 = w'.extractLsb' 8 3 →
    decode w = decode w'

/-- Some words of spec/95_test_vectors.md (2.1) decode to the instructions they stand for. -/
def Obligations.SampleWordsDecode : Prop :=
  decode 0x0FF#12 = .jump ∧ decode 0x1FF#12 = .sub ∧ decode 0x200#12 = .nand ∧ decode 0x300#12 = .fetch ∧
  decode 0x400#12 = .store ∧ decode 0x5AB#12 = .nop ∧ decode 0x600#12 = .invalid6 ∧ decode 0x7FF#12 = .invalid7 ∧
  decode 0xBFF#12 = .imm 0x3FF#12 ∧ decode 0xC02#12 = .imm 0xC02#12

/-- R69 (D9, D14): `IMM n` assembles for `n` in -1024..1023, to a word that decodes to the load of `n`, and is refused
outside; a label in 0..1023 stands for its address; the other mnemonics are the encoder's words; `.word` gives any word. -/
def Obligations.AssemblerWordsDecodeToTheirMnemonics : Prop :=
  ∀ prog : List AsmLine,
    (∀ n : Int, -1024 ≤ n → n ≤ 1023 →
      ∃ w, assembleOp prog (.imm (.value n)) = some w ∧ decode w = .imm (BitVec.ofInt 12 n)) ∧
    (∀ n : Int, (n < -1024 ∨ 1023 < n) → assembleOp prog (.imm (.value n)) = none) ∧
    (∀ name k : Nat, labelAddr name 0 prog = some k → k ≤ 1023 →
      ∃ w, assembleOp prog (.imm (.label name)) = some w ∧ decode w = .imm (BitVec.ofNat 12 k)) ∧
    assembleOp prog .jump = some (encode .jump) ∧ assembleOp prog .sub = some (encode .sub) ∧
    assembleOp prog .nand = some (encode .nand) ∧ assembleOp prog .fetch = some (encode .fetch) ∧
    assembleOp prog .store = some (encode .store) ∧ assembleOp prog .nop = some (encode .nop) ∧
    (∀ w : Word, assembleOp prog (.word w.toNat) = some w)

/-! ### What each instruction does, and its frame -/

/-- R100: the word pattern, the effect, the frame, and that no other instruction writes `x`. -/
def Obligations.ImmediateLoadSavesOldAccumulator : Prop :=
  (∀ w : Word, w &&& 0x800#12 = 0x800#12 → decode w = .imm ((w.extractLsb' 0 11).signExtend 12)) ∧
  (∀ (v : Word) (s : State), ∃ t, exec (.imm v) s = .next t ∧ t.x = s.a ∧ t.a = v ∧
    t.p = s.p ∧ t.i = s.i ∧ t.run = s.run ∧ (∀ k, t.mem.read k = s.mem.read k) ∧ execEvents (.imm v) s = []) ∧
  (∀ (i : Instr) (s t : State), exec i s = .next t → (∀ v, i ≠ .imm v) → t.x = s.x)

/-- R110: the word pattern; with `x[11]` set the jump is suppressed and `a` gets `x`; with it clear `a` gets the advanced
`p`, zero-extended, and `p` the old `a` modulo 2048. -/
def Obligations.JumpLinksOnNonNegativeX : Prop :=
  (∀ w : Word, w &&& 0xF00#12 = 0x000#12 → decode w = .jump) ∧
  (∀ s : State, s.x.getLsbD 11 = true → ∃ t, exec .jump s = .next t ∧ t.a = s.x ∧ t.p = s.p ∧
    t.x = s.x ∧ t.i = s.i ∧ t.run = s.run ∧ (∀ k, t.mem.read k = s.mem.read k)) ∧
  (∀ s : State, s.x.getLsbD 11 = false → ∃ t, exec .jump s = .next t ∧ t.a.toNat = s.p.toNat ∧
    t.p.toNat = s.a.toNat % 2048 ∧ t.x = s.x ∧ t.i = s.i ∧ t.run = s.run ∧ (∀ k, t.mem.read k = s.mem.read k)) ∧
  (∀ s : State, execEvents .jump s = [])

/-- R120: the word pattern; `a` gets `x` minus `a` modulo 4096, the same bits in the unsigned and the signed reading. -/
def Obligations.SubtractsAccumulatorFromX : Prop :=
  (∀ w : Word, w &&& 0xF00#12 = 0x100#12 → decode w = .sub) ∧
  (∀ s : State, ∃ t, exec .sub s = .next t ∧
    (t.a.toNat : Int) = ((s.x.toNat : Int) - (s.a.toNat : Int)) % 4096 ∧
    t.a.toInt = (s.x.toInt - s.a.toInt).bmod 4096 ∧
    t.x = s.x ∧ t.p = s.p ∧ t.i = s.i ∧ t.run = s.run ∧ (∀ k, t.mem.read k = s.mem.read k) ∧ execEvents .sub s = [])

/-- R121: the word pattern; each of the 12 bits of `a` becomes the NAND of the bits of `a` and `x`. -/
def Obligations.NandsEveryBit : Prop :=
  (∀ w : Word, w &&& 0xF00#12 = 0x200#12 → decode w = .nand) ∧
  (∀ s : State, ∃ t, exec .nand s = .next t ∧
    (∀ n < 12, t.a.getLsbD n = !(s.a.getLsbD n && s.x.getLsbD n)) ∧
    t.x = s.x ∧ t.p = s.p ∧ t.i = s.i ∧ t.run = s.run ∧ (∀ k, t.mem.read k = s.mem.read k) ∧ execEvents .nand s = [])

/-- R122: the word pattern; the execute part changes nothing, and a step of a NOP in RUN changes `p` and `i` only. -/
def Obligations.NoOpOnlyFetches : Prop :=
  (∀ w : Word, w &&& 0xF00#12 = 0x500#12 → decode w = .nop) ∧
  (∀ s : State, exec .nop s = .next s ∧ execEvents .nop s = []) ∧
  (∀ s : State, s.run = .running → decode (s.mem.read s.p) = .nop → ∃ t, step s = .next t ∧
    t.p.toNat = (s.p.toNat + 1) % 2048 ∧ t.i = s.mem.read s.p ∧ t.a = s.a ∧ t.x = s.x ∧ t.run = .running ∧
    (∀ k, t.mem.read k = s.mem.read k))

/-- R140: the word pattern; `a` gets the whole word of the cell `a mod 2048`; nothing else changes. -/
def Obligations.FetchLoadsAddressedCell : Prop :=
  (∀ w : Word, w &&& 0xF00#12 = 0x300#12 → decode w = .fetch) ∧
  (∀ s : State, ∃ t, exec .fetch s = .next t ∧
    (∀ k : Addr, k.toNat = s.a.toNat % 2048 → t.a = s.mem.read k) ∧
    t.x = s.x ∧ t.p = s.p ∧ t.i = s.i ∧ t.run = s.run ∧ (∀ k, t.mem.read k = s.mem.read k) ∧ execEvents .fetch s = [])

/-- R141: the word pattern; the cell `a mod 2048` gets `x`, every other cell reads as before, no register changes, and the
StoreEvent names that cell and that value. -/
def Obligations.StoreWritesAddressedCellOnly : Prop :=
  (∀ w : Word, w &&& 0xF00#12 = 0x400#12 → decode w = .store) ∧
  (∀ s : State, ∃ t, exec .store s = .next t ∧ (dataAddr s).toNat = s.a.toNat % 2048 ∧
    t.mem.read (dataAddr s) = s.x ∧ (∀ k : Addr, k ≠ dataAddr s → t.mem.read k = s.mem.read k) ∧
    t.a = s.a ∧ t.x = s.x ∧ t.p = s.p ∧ t.i = s.i ∧ t.run = s.run ∧
    execEvents .store s = [.store (dataAddr s) s.x])

/-- R161, R162 (D3, D4; a next state by notes/assumptions/1.md): the word patterns; executing Invalid(k) enters FAULTED with the record of cause 1, `k`, `i` and
`(p - 1) mod 2048`, and changes nothing else. -/
def Obligations.InvalidEntersFaultedWithRecord : Prop :=
  (∀ w : Word, w &&& 0xF00#12 = 0x600#12 → decode w = .invalid6) ∧
  (∀ w : Word, w &&& 0xF00#12 = 0x700#12 → decode w = .invalid7) ∧
  (∀ (s : State) (k : BitVec 3) (i : Instr), (i = .invalid6 ∧ k = 6#3 ∨ i = .invalid7 ∧ k = 7#3) →
    ∃ t info, exec i s = .next t ∧ t.run = .faulted info ∧
      info.cause.code = 1 ∧ info.opcode = k ∧ info.word = s.i ∧ info.addr.toNat = (s.p.toNat + 2047) % 2048 ∧
      t.p = s.p ∧ t.a = s.a ∧ t.x = s.x ∧ t.i = s.i ∧ (∀ j, t.mem.read j = s.mem.read j) ∧ execEvents i s = [])

/-- R141, R50: what a STORE wrote is what a later FETCH with the same low 11 address bits in `a` loads. -/
def Obligations.StoreThenFetchRestoresValue : Prop :=
  ∀ (s : State) (b : Word), b.toNat % 2048 = s.a.toNat % 2048 →
    ∃ t u, exec .store s = .next t ∧ exec .fetch { t with a := b } = .next u ∧ u.a = s.x

/-- R123: addition is `x - (0 - a)`, and NOT is the NAND of a value with itself. -/
def Obligations.AdditionAndNotFromTheAlu : Prop :=
  ∀ a x : Word, (aluSub x (aluSub 0#12 a)).toNat = (x.toNat + a.toNat) % 4096 ∧ aluNand a a = ~~~a

/-! ### The step -/

/-- A step in RUN is the execute part of the instruction that the word at `p` stands for, on the state with that word in
`i` and `p` advanced (R81, R84, R85). -/
def Obligations.StepRunsDecodedInstruction : Prop :=
  ∀ (s : State) (i : Instr) (u : BitVec 8), s.run = .running → i.wf = true → s.mem.read s.p = encodeWith u i →
    step s = exec i { s with i := s.mem.read s.p, p := s.p + 1#11 }

/-- R83, R81: every step in RUN, an Invalid word's included, first reads `M[p]` into `i`, reports `p`, and advances `p`
modulo 2048; 2047 is followed by 0. The word stays in `i` to the end of the step (R24). That the step answers a next state
for an Invalid word too is the model's reading of the fault outcome (notes/assumptions/1.md, DEDUCED; D3): R83 says nothing
of what a step answers. -/
def Obligations.EveryStepFetchesFirst : Prop :=
  ∀ s : State, s.run = .running → ∃ f t : State,
    f.i = s.mem.read s.p ∧ f.p.toNat = (s.p.toNat + 1) % 2048 ∧ f.a = s.a ∧ f.x = s.x ∧ f.mem = s.mem ∧ f.run = .running ∧
    step s = exec (decode f.i) f ∧ step s = .next t ∧ t.i = s.mem.read s.p ∧
    stepEvents s = .fetch s.p :: execEvents (decode f.i) f

/-- R82 (D3; the same state as a next state by notes/assumptions/1.md): in FAULTED a step request changes nothing and emits nothing. -/
def Obligations.FaultedStepHasNoEffect : Prop :=
  ∀ (s : State) (info : FaultInfo), s.run = .faulted info → step s = .next s ∧ stepEvents s = []

/-- R82, R164, R172 (D3; next states in FAULTED by notes/assumptions/1.md): however many requests come in FAULTED, with no reset among them the whole state is kept and
nothing is emitted; and a reset returns to RUN from any state. -/
def Obligations.OnlyResetLeavesFaulted : Prop :=
  (∀ (rs : List Request) (s : State) (info : FaultInfo), s.run = .faulted info → (∀ image, .reset image ∉ rs) →
    runRequests rs s = .next s ∧ traceRequests rs s = []) ∧
  (∀ (image : List Word) (s : State), ∃ t, Request.apply (.reset image) s = .next t ∧ t.run = .running)

/-- R67 (D3; a next state for them too by notes/assumptions/1.md): exactly the words 0x600-0x7FF are illegal: a step in RUN leaves RUN if and only if it executes one of them, and
then `a`, `x` and `M` are as before. -/
def Obligations.ExactlyInvalidWordsAreFatal : Prop :=
  ∀ s : State, s.run = .running → ∃ t, step s = .next t ∧
    (t.run ≠ .running ↔ 0x600 ≤ (s.mem.read s.p).toNat ∧ (s.mem.read s.p).toNat ≤ 0x7FF) ∧
    (t.run ≠ .running → t.a = s.a ∧ t.x = s.x ∧ ∀ k, t.mem.read k = s.mem.read k)

/-- R161-R163 (D3, D4; a next state by notes/assumptions/1.md): a step that executes an Invalid word is precise: the record names the word, its opcode field and
the address it came from, `i` and `p` are as the fetch left them, and nothing else has changed. -/
def Obligations.FaultIsPrecise : Prop :=
  ∀ (s : State) (w : Word), s.run = .running → s.mem.read s.p = w → 0x600 ≤ w.toNat → w.toNat ≤ 0x7FF →
    ∃ t, step s = .next t ∧
      t.run = .faulted { cause := .invalidOpcode, opcode := BitVec.ofNat 3 (w.toNat / 256), word := w, addr := s.p } ∧
      t.i = w ∧ t.p.toNat = (s.p.toNat + 1) % 2048 ∧ t.a = s.a ∧ t.x = s.x ∧
      (∀ k, t.mem.read k = s.mem.read k) ∧ stepEvents s = [.fetch s.p]

/-- The model's choice (notes/assumptions/1.md, DEDUCED; D3): an Invalid word ends its step in a next state that is FAULTED,
and a step request in FAULTED answers that same state (R82, D3), where R86 says that an Invalid opcode does stop the CORE.
With that, and since nothing else faults (R160), every request in every state answers a next state. -/
def Obligations.EveryRequestAnswersNextState : Prop :=
  ∀ (rs : List Request) (s : State), ∃ t, runRequests rs s = .next t

/-- R87, R82: the events of a step: none in FAULTED; in RUN the fetch's, then a StoreEvent exactly if the word is a STORE,
with the address `a mod 2048` and the value `x` that the step leaves in that cell. -/
def Obligations.EventsOfAStep : Prop :=
  ∀ s t : State, step s = .next t →
    (s.run ≠ .running → stepEvents s = []) ∧
    (s.run = .running → decode (s.mem.read s.p) ≠ .store → stepEvents s = [.fetch s.p]) ∧
    (s.run = .running → decode (s.mem.read s.p) = .store → ∃ k : Addr, k.toNat = s.a.toNat % 2048 ∧
      stepEvents s = [.fetch s.p, .store k s.x] ∧ t.mem.read k = s.x)

/-- R81, R82, R89: the bit-vector machine is, step for step and event for event, the spec's pseudocode over integers with
every mask written out: for any number of step requests from any state. That FAULTED is a next state, kept by every further
step request, is notes/assumptions/1.md with D3; its record is D4. -/
def Obligations.StepsRefineIntegerPseudocode : Prop :=
  ∀ (n : Nat) (s : State), ∃ t, runSteps n s = .next t ∧
    intState t = (intRun n (intState s)).1 ∧ (traceSteps n s).map intEvent = (intRun n (intState s)).2

/-! ### Whole-machine rules -/

/-- R162, R40: every step keeps memory in its canonical form and a fault record true. -/
def Obligations.EveryStepKeepsTheInvariant : Prop :=
  ∀ s t : State, s.Inv → step s = .next t → t.Inv

/-- The invariant holds after every reset, `State.reset` among them. -/
def Obligations.InvariantHoldsAtReset : Prop :=
  State.Inv State.reset ∧ ∀ image : List Word, (State.resetWith image).Inv

/-- R40, R43: memories in canonical form that read alike at every address are one and the same list. -/
def Obligations.CanonicalMemoriesReadAlikeAreEqual : Prop :=
  ∀ m m' : Memory, m.wf → m'.wf → (∀ k : Addr, m.read k = m'.read k) → m = m'

/-- R49: only a reset's image load and a STORE change memory, and a STORE only its own cell. -/
def Obligations.OnlyImageLoadAndStoreWriteMemory : Prop :=
  ∀ (r : Request) (s t : State) (k : Addr), r.apply s = .next t → t.mem.read k ≠ s.mem.read k →
    (∃ image, r = .reset image) ∨
    (r = .step ∧ s.run = .running ∧ decode (s.mem.read s.p) = .store ∧
      k.toNat = s.a.toNat % 2048 ∧ t.mem.read k = s.x)

/-- R23: a step that changes `x` is an immediate load, and `x` gets the old `a`. -/
def Obligations.OnlyImmediateLoadWritesX : Prop :=
  ∀ s t : State, step s = .next t → t.x ≠ s.x →
    s.run = .running ∧ (∃ v, decode (s.mem.read s.p) = .imm v ∧ t.a = v) ∧ t.x = s.a

/-- R21, R86: in RUN `p` advances by one modulo 2048, but for a JUMP with `x[11]` clear, which leaves it at `a mod 2048`. -/
def Obligations.OnlyTakenJumpRedirectsP : Prop :=
  ∀ s t : State, s.run = .running → step s = .next t →
    (decode (s.mem.read s.p) = .jump ∧ s.x.getLsbD 11 = false → t.p.toNat = s.a.toNat % 2048) ∧
    (¬ (decode (s.mem.read s.p) = .jump ∧ s.x.getLsbD 11 = false) → t.p.toNat = (s.p.toNat + 1) % 2048)

/-- R23: FETCH and NOP do not read `x`, nor does an immediate load, which overwrites it. -/
def Obligations.FetchNoOpImmediateIgnoreX : Prop :=
  ∀ (s : State) (y v : Word),
    (∃ t, exec .fetch s = .next t ∧ exec .fetch { s with x := y } = .next { t with x := y }) ∧
    (∃ t, exec .nop s = .next t ∧ exec .nop { s with x := y } = .next { t with x := y }) ∧
    (∃ t, exec (.imm v) s = .next t ∧ exec (.imm v) { s with x := y } = .next t)

/-- R24: no instruction lets a program read `i`: a step in RUN does not depend on the word left in it, and the execute part
of an instruction that is not Invalid carries any word in `i` through untouched. -/
def Obligations.ProgramsCannotReadI : Prop :=
  (∀ (s : State) (w : Word), s.run = .running → step { s with i := w } = step s ∧
    stepEvents { s with i := w } = stepEvents s) ∧
  (∀ (i : Instr) (s : State) (w : Word), i ≠ .invalid6 → i ≠ .invalid7 →
    ∃ t, exec i s = .next t ∧ exec i { s with i := w } = .next { t with i := w })

/-- R53: a step reads the cell `p` and, for FETCH alone, the cell `a mod 2048`, and no other: two states in RUN that agree
on the registers and those cells step alike, emit alike, and still agree wherever their memories agreed. That both answer a
next state for an Invalid word too is notes/assumptions/1.md with D3. -/
def Obligations.StepReadsOnlyItsTwoCells : Prop :=
  ∀ s s' : State, s.run = .running → s'.run = .running → s.p = s'.p → s.a = s'.a → s.x = s'.x →
    s.mem.read s.p = s'.mem.read s.p →
    (decode (s.mem.read s.p) = .fetch → s.mem.read (dataAddr s) = s'.mem.read (dataAddr s)) →
    ∃ t t', step s = .next t ∧ step s' = .next t' ∧
      t.p = t'.p ∧ t.a = t'.a ∧ t.x = t'.x ∧ t.i = t'.i ∧ t.run = t'.run ∧ stepEvents s = stepEvents s' ∧
      ∀ k, s.mem.read k = s'.mem.read k → t.mem.read k = t'.mem.read k

/-- R52, R184: a STORE completes with its own word in `i` wherever it writes; and if it writes the next cell, the very next
step executes the stored word. -/
def Obligations.StoredWordIsFetchedNext : Prop :=
  ∀ s : State, s.run = .running → decode (s.mem.read s.p) = .store →
    ∃ t, step s = .next t ∧ t.i = s.mem.read s.p ∧ t.run = .running ∧
      (dataAddr s = s.p → t.mem.read s.p = s.x) ∧
      (dataAddr s = s.p + 1#11 → step t = exec (decode s.x) { t with i := s.x, p := s.p + 2#11 })

/-- R50: over any number of steps, a cell holds the value of the last StoreEvent to it, or what it held at the start. -/
def Obligations.CellsHoldTheirLastStore : Prop :=
  ∀ (n : Nat) (s t : State), runSteps n s = .next t →
    ∀ k : Addr, t.mem.read k = (lastStore k (traceSteps n s)).getD (s.mem.read k)

/-- R86, R183 (D3; FAULTED is a next state by notes/assumptions/1.md): from a state in RUN, `n` steps are a safe run exactly if none of them comes to an Invalid word. -/
def Obligations.SafeRunMeetsNoInvalidWord : Prop :=
  ∀ (n : Nat) (s : State), s.isRunning →
    (SafeFor n s ↔ ∀ k < n, ∀ t, runSteps k s = .next t →
      ¬ (0x600 ≤ (t.mem.read t.p).toNat ∧ (t.mem.read t.p).toNat ≤ 0x7FF))

/-! ### Pseudo-instructions and the host's placing of a word -/

/-- R70 (D17), R111, R112: `GOTO`/`CALL` and `BRNN`, with their expansions at `p`. -/
def Obligations.PseudoBranchEffects : Prop :=
  (∀ (s : State) (c : Addr) (q : Pseudo), (q = .goto c ∨ q = .call c) → s.run = .running →
    placedAt s.mem s.p q.expand → ∃ t, runSteps 3 s = .next t ∧
      t.p = c ∧ t.a.toNat = (s.p.toNat + 3) % 2048 ∧ t.x = 0#12 ∧ t.run = .running ∧
      ∀ k, t.mem.read k = s.mem.read k) ∧
  (∀ (s : State) (c : Addr), s.run = .running → placedAt s.mem s.p (Pseudo.brnn c).expand →
    ∃ t, runSteps 2 s = .next t ∧ t.x = s.a ∧ t.run = .running ∧ (∀ k, t.mem.read k = s.mem.read k) ∧
      (s.a.getLsbD 11 = false → t.p = c ∧ t.a.toNat = (s.p.toNat + 2) % 2048) ∧
      (s.a.getLsbD 11 = true → t.p.toNat = (s.p.toNat + 2) % 2048 ∧ t.a = s.a))

/-- R70 (D17): `LOADM`, `STOREM` and `RET`, with their expansions at `p` and `k` in 0..1023. -/
def Obligations.PseudoMemoryEffects : Prop :=
  (∀ (s : State) (k : Addr), k.toNat ≤ 1023 → s.run = .running → placedAt s.mem s.p (Pseudo.loadm k).expand →
    ∃ t, runSteps 2 s = .next t ∧ t.x = s.a ∧ t.a = s.mem.read k ∧ t.p = s.p + 2#11 ∧ t.run = .running ∧
      ∀ j, t.mem.read j = s.mem.read j) ∧
  (∀ (s : State) (k : Addr), k.toNat ≤ 1023 → s.run = .running → placedAt s.mem s.p (Pseudo.storem k).expand →
    ∃ t, runSteps 2 s = .next t ∧ t.mem.read k = s.a ∧ t.x = s.a ∧ t.a.toNat = k.toNat ∧ t.p = s.p + 2#11 ∧
      t.run = .running ∧ ∀ j, j ≠ k → t.mem.read j = s.mem.read j) ∧
  (∀ (s : State) (k : Addr), k.toNat ≤ 1023 → s.run = .running → placedAt s.mem s.p (Pseudo.ret k).expand →
    ∃ t, runSteps 4 s = .next t ∧ t.p.toNat = (s.mem.read k).toNat % 2048 ∧
      t.a.toNat = (s.p.toNat + 4) % 2048 ∧ t.x = 0#12 ∧ t.run = .running ∧ ∀ j, t.mem.read j = s.mem.read j)

/-- The model's own interface (notes/assumptions/6.md): a word of the opcode table, placed by `withFetchWord` in any state,
is what the next step runs, with every register as it was and every other cell unchanged. -/
def Obligations.PlacedWordRunsNext : Prop :=
  ∀ (s : State) (nbits w : Nat) (i : Instr), decodeTableWord nbits w = some i →
    ∃ f : State, step (s.withFetchWord nbits w) = exec i f ∧
      f.i.toNat = w % 2 ^ nbits ∧ f.p = s.p + 1#11 ∧ f.a = s.a ∧ f.x = s.x ∧ f.run = .running ∧
      f.mem.read s.p = f.i ∧ ∀ k, k ≠ s.p → f.mem.read k = s.mem.read k
end

