-- ==== Sys2Proof/Laws/Decode.lean ====
section
/-! SUPPORT. The bits of the words the encoder makes and of a sign-extended immediate (spec/30_encoding.md R61-R65). -/

namespace Sys2Proof

/-- The bits of an OP-format word: `u` below, the format bit and the opcode above. -/
theorem getLsbD_opWord (q : BitVec 4) (u : BitVec 8) (j : Nat) :
    BitVec.getLsbD (w := 12) (q ++ u) j = if j < 8 then u.getLsbD j else q.getLsbD (j - 8) :=
  BitVec.getLsbD_append

/-- The bits of an IMM-format word: the immediate field below, the format bit above. -/
theorem getLsbD_immWord (f : BitVec 1) (v : BitVec 11) (j : Nat) :
    BitVec.getLsbD (w := 12) (f ++ v) j = if j < 11 then v.getLsbD j else f.getLsbD (j - 11) :=
  BitVec.getLsbD_append

/-- Sign extension by bits (R8): the field's own bits, then copies of bit 10. -/
theorem getLsbD_sext12 (v : BitVec 11) (j : Nat) (hj : j < 12) :
    (sext12 v).getLsbD j = if j < 11 then v.getLsbD j else v.getLsbD 10 := by
  rw [sext12, BitVec.getLsbD_signExtend, BitVec.msb_eq_getLsbD_last]
  simp [hj]

/-- The fields of a word whose bits 11:8 are `q` and whose unused bits are `u`. -/
theorem fields_opWord (q : BitVec 4) (u : BitVec 8) :
    immFlag (q ++ u) = q.getLsbD 3 ∧ opField (q ++ u) = q.extractLsb' 0 3 ∧
      BitVec.extractLsb' (n := 12) 0 8 (q ++ u) = u := by
  refine ⟨getLsbD_opWord q u 11, BitVec.eq_of_getLsbD_eq fun j hj => ?_, BitVec.eq_of_getLsbD_eq fun j hj => ?_⟩
  · simp [opField, BitVec.getLsbD_extractLsb', getLsbD_opWord]
  · simp [getLsbD_opWord, hj]

end Sys2Proof
end

