-- ==== Sys2Proof/Laws/Memory.lean ====
section
/-! SUPPORT. The laws of memory: what a read answers after a write and after the image load, and that both keep the
canonical form. -/

namespace Sys2Proof.Machine

@[simp] theorem Memory.read_nil (k : Addr) : Memory.read [] k = 0#12 := rfl

theorem Memory.readCell_cons (j k : Nat) (v : Word) (m : Memory) :
    Memory.readCell (Memory.cons j v m) k =
      if j = k then (if v = 0#12 then Memory.readCell m k else v) else Memory.readCell m k := by
  unfold Memory.cons
  by_cases hv : v = 0#12 <;> by_cases hj : j = k <;> simp [hv, hj, Memory.readCell]

/-- Inserting a cell into a memory that does not list it: that cell reads as the new word, every other as before. -/
theorem Memory.readCell_insert (j k : Nat) (v : Word) (m : Memory) (hm : ∀ c ∈ m, c.1 ≠ j) :
    Memory.readCell (Memory.insert j v m) k = if j = k then v else Memory.readCell m k := by
  induction m with
  | nil =>
    rw [Memory.insert, Memory.readCell_cons]
    by_cases hj : j = k <;> by_cases hv : v = 0#12 <;> simp [hj, hv, Memory.readCell]
  | cons c rest ih =>
    obtain ⟨a, w⟩ := c
    have hne : a ≠ j := hm (a, w) (by simp)
    have ih := ih fun c hc => hm c (List.mem_cons_of_mem _ hc)
    have absent : ∀ l : Memory, (∀ c ∈ l, c.1 ≠ j) → Memory.readCell l j = 0#12 := by
      intro l hl
      induction l with
      | nil => rfl
      | cons d l ih =>
        have := hl d (by simp)
        have ih := ih fun c hc => hl c (List.mem_cons_of_mem _ hc)
        simpa [Memory.readCell, this] using ih
    rw [Memory.insert]
    by_cases hlt : j < a
    · rw [if_pos hlt, Memory.readCell_cons]
      by_cases hj : j = k
      · subst hj
        by_cases hv : v = 0#12
        · simp [hv, absent _ hm]
        · simp [hv]
      · simp [hj]
    · rw [if_neg hlt]
      by_cases ha : a = k
      · have : j ≠ k := fun h => hne (ha.trans h.symm)
        simp [Memory.readCell, ha, this]
      · simpa [Memory.readCell, ha] using ih

theorem Memory.mem_erase {m : Memory} {j : Nat} {c : Cell} : c ∈ Memory.erase m j ↔ c ∈ m ∧ c.1 ≠ j := by
  simp [Memory.erase]

theorem Memory.readCell_erase (m : Memory) {j k : Nat} (h : j ≠ k) :
    Memory.readCell (Memory.erase m j) k = Memory.readCell m k := by
  induction m with
  | nil => rfl
  | cons c rest ih =>
    obtain ⟨a, w⟩ := c
    unfold Memory.erase at *
    by_cases ha : a = j
    · have : a ≠ k := fun h' => h (ha.symm.trans h')
      simpa [List.filter_cons, ha, Memory.readCell, h] using ih
    · by_cases hk : a = k
      · simp [hk, Memory.readCell, Ne.symm h]
      · simpa [ha, Memory.readCell, hk] using ih

/-- `MemWrite` sets its own cell and changes no other (R43), whatever list the memory is. -/
theorem Memory.read_write (m : Memory) (j k : Addr) (v : Word) :
    (m.write j v).read k = if j = k then v else m.read k := by
  unfold Memory.read Memory.write
  rw [Memory.readCell_insert _ _ _ _ fun c hc => (Memory.mem_erase.1 hc).2]
  by_cases h : j = k
  · simp [h]
  · have : j.toNat ≠ k.toNat := fun h' => h (BitVec.eq_of_toNat_eq h')
    simp [h, this, Memory.readCell_erase]

@[simp] theorem Memory.read_write_same (m : Memory) (k : Addr) (v : Word) : (m.write k v).read k = v := by
  simp [Memory.read_write]

theorem Memory.read_write_other (m : Memory) {j k : Addr} (v : Word) (h : j ≠ k) :
    (m.write j v).read k = m.read k := by
  simp [Memory.read_write, h]

/-! ### The canonical form -/

theorem Memory.mem_cons_cell {j : Nat} {v : Word} {m : Memory} {c : Cell} (h : c ∈ Memory.cons j v m) :
    (c = (j, v) ∧ v ≠ 0#12) ∨ c ∈ m := by
  unfold Memory.cons at h
  split at h
  · exact .inr h
  · rcases List.mem_cons.1 h with h | h
    · exact .inl ⟨h, ‹_›⟩
    · exact .inr h

theorem Memory.mem_insert_cell {j : Nat} {v : Word} {m : Memory} {c : Cell} (h : c ∈ Memory.insert j v m) :
    (c = (j, v) ∧ v ≠ 0#12) ∨ c ∈ m := by
  induction m with
  | nil => exact Memory.mem_cons_cell h
  | cons d rest ih =>
    obtain ⟨a, w⟩ := d
    rw [Memory.insert] at h
    split at h
    · exact Memory.mem_cons_cell h
    · rcases List.mem_cons.1 h with h | h
      · exact .inr (by simp [h])
      · exact (ih h).imp_right (List.mem_cons_of_mem _)

theorem Memory.cons_sorted {j : Nat} {v : Word} {m : Memory} (hm : m.Pairwise fun c d => c.1 < d.1)
    (hj : ∀ c ∈ m, j < c.1) : (Memory.cons j v m).Pairwise fun c d => c.1 < d.1 := by
  unfold Memory.cons
  split
  · exact hm
  · exact List.pairwise_cons.2 ⟨fun c hc => hj c hc, hm⟩

theorem Memory.insert_sorted {j : Nat} {v : Word} {m : Memory} (hm : m.Pairwise fun c d => c.1 < d.1)
    (hj : ∀ c ∈ m, c.1 ≠ j) : (Memory.insert j v m).Pairwise fun c d => c.1 < d.1 := by
  induction m with
  | nil => exact Memory.cons_sorted hm (by simp)
  | cons d rest ih =>
    obtain ⟨a, w⟩ := d
    have hd := List.pairwise_cons.1 hm
    have hne : a ≠ j := hj (a, w) (by simp)
    rw [Memory.insert]
    split
    · refine Memory.cons_sorted hm fun c hc => ?_
      rcases List.mem_cons.1 hc with rfl | hc
      · assumption
      · exact lt_trans ‹_› (hd.1 c hc)
    · refine List.pairwise_cons.2 ⟨fun c hc => ?_, ih hd.2 fun c hc => hj c (List.mem_cons_of_mem _ hc)⟩
      rcases Memory.mem_insert_cell hc with ⟨rfl, -⟩ | hc
      · show a < j
        omega
      · exact hd.1 c hc

/-- A write keeps the canonical form. -/
theorem Memory.write_wf {m : Memory} (hm : m.wf) (k : Addr) (v : Word) : (m.write k v).wf := by
  refine ⟨Memory.insert_sorted (hm.1.filter _) fun c hc => (Memory.mem_erase.1 hc).2, fun c hc => ?_⟩
  rcases Memory.mem_insert_cell hc with ⟨rfl, hv⟩ | hc
  · exact ⟨k.isLt, hv⟩
  · exact hm.2 c (Memory.mem_erase.1 hc).1

theorem Memory.nil_wf : Memory.wf [] := ⟨List.Pairwise.nil, by simp⟩

theorem Memory.mem_fill {k : Nat} {ws : List Word} {c : Cell} (h : c ∈ Memory.fill k ws) :
    k ≤ c.1 ∧ c.1 < 2048 ∧ c.2 ≠ 0#12 := by
  induction ws generalizing k with
  | nil => simp [Memory.fill] at h
  | cons w ws ih =>
    rw [Memory.fill] at h
    split at h
    · rcases Memory.mem_cons_cell h with ⟨rfl, hw⟩ | h
      · exact ⟨le_refl k, ‹_›, hw⟩
      · have := ih h
        exact ⟨by omega, this.2⟩
    · simp at h

/-- The image load gives a memory in canonical form. -/
theorem Memory.ofImage_wf (image : List Word) : (Memory.ofImage image).wf := by
  have sorted : ∀ (ws : List Word) (k : Nat), (Memory.fill k ws).Pairwise fun c d => c.1 < d.1 := by
    intro ws
    induction ws with
    | nil => intro k; exact List.Pairwise.nil
    | cons w ws ih =>
      intro k
      rw [Memory.fill]
      split
      · exact Memory.cons_sorted (ih _) fun c hc => (Memory.mem_fill hc).1
      · exact List.Pairwise.nil
  exact ⟨sorted image 0, fun c hc => (Memory.mem_fill hc).2⟩

theorem Memory.readCell_fill (ws : List Word) (k j : Nat) :
    Memory.readCell (Memory.fill k ws) j = if k ≤ j ∧ j < 2048 then ws.getD (j - k) 0#12 else 0#12 := by
  induction ws generalizing k with
  | nil => simp [Memory.fill, Memory.readCell]
  | cons w ws ih =>
    rw [Memory.fill]
    by_cases hk : k < 2048
    · rw [if_pos hk, Memory.readCell_cons, ih]
      by_cases hj : k = j
      · subst hj
        by_cases hw : w = 0#12 <;> simp [hk, hw]
      · by_cases hle : k ≤ j
        · obtain ⟨d, rfl⟩ : ∃ d, j = k + 1 + d := ⟨j - (k + 1), by omega⟩
          have h1 : k + 1 + d - k = d + 1 := by omega
          have h2 : k ≤ k + 1 + d := by omega
          simp [hj, h1, h2]
        · have : ¬ k + 1 ≤ j := by omega
          simp [hj, hle, this]
    · rw [if_neg hk, if_neg (by omega)]
      rfl

/-- After the image load, each cell holds its word of the image, and zero where the image has none (R48). -/
theorem Memory.read_ofImage (image : List Word) (k : Addr) :
    (Memory.ofImage image).read k = image.getD k.toNat 0#12 := by
  have hk : k.toNat < 2048 := k.isLt
  simp [Memory.read, Memory.ofImage, Memory.readCell_fill, hk]

end Sys2Proof.Machine
end

