-- ==== Sys2Proof/Laws/State.lean ====
section
/-! SUPPORT. What each update of the state does to each field, so that no later proof unfolds a record update. -/

namespace Sys2Proof.Machine

@[simp] theorem setP_p (s : State) (v : Addr) : (s.setP v).p = v := rfl
@[simp] theorem setP_a (s : State) (v : Addr) : (s.setP v).a = s.a := rfl
@[simp] theorem setP_x (s : State) (v : Addr) : (s.setP v).x = s.x := rfl
@[simp] theorem setP_i (s : State) (v : Addr) : (s.setP v).i = s.i := rfl
@[simp] theorem setP_mem (s : State) (v : Addr) : (s.setP v).mem = s.mem := rfl
@[simp] theorem setP_run (s : State) (v : Addr) : (s.setP v).run = s.run := rfl

@[simp] theorem setA_p (s : State) (v : Word) : (s.setA v).p = s.p := rfl
@[simp] theorem setA_a (s : State) (v : Word) : (s.setA v).a = v := rfl
@[simp] theorem setA_x (s : State) (v : Word) : (s.setA v).x = s.x := rfl
@[simp] theorem setA_i (s : State) (v : Word) : (s.setA v).i = s.i := rfl
@[simp] theorem setA_mem (s : State) (v : Word) : (s.setA v).mem = s.mem := rfl
@[simp] theorem setA_run (s : State) (v : Word) : (s.setA v).run = s.run := rfl

@[simp] theorem setX_p (s : State) (v : Word) : (s.setX v).p = s.p := rfl
@[simp] theorem setX_a (s : State) (v : Word) : (s.setX v).a = s.a := rfl
@[simp] theorem setX_x (s : State) (v : Word) : (s.setX v).x = v := rfl
@[simp] theorem setX_i (s : State) (v : Word) : (s.setX v).i = s.i := rfl
@[simp] theorem setX_mem (s : State) (v : Word) : (s.setX v).mem = s.mem := rfl
@[simp] theorem setX_run (s : State) (v : Word) : (s.setX v).run = s.run := rfl

@[simp] theorem setI_p (s : State) (v : Word) : (s.setI v).p = s.p := rfl
@[simp] theorem setI_a (s : State) (v : Word) : (s.setI v).a = s.a := rfl
@[simp] theorem setI_x (s : State) (v : Word) : (s.setI v).x = s.x := rfl
@[simp] theorem setI_i (s : State) (v : Word) : (s.setI v).i = v := rfl
@[simp] theorem setI_mem (s : State) (v : Word) : (s.setI v).mem = s.mem := rfl
@[simp] theorem setI_run (s : State) (v : Word) : (s.setI v).run = s.run := rfl

@[simp] theorem setMem_p (s : State) (v : Memory) : (s.setMem v).p = s.p := rfl
@[simp] theorem setMem_a (s : State) (v : Memory) : (s.setMem v).a = s.a := rfl
@[simp] theorem setMem_x (s : State) (v : Memory) : (s.setMem v).x = s.x := rfl
@[simp] theorem setMem_i (s : State) (v : Memory) : (s.setMem v).i = s.i := rfl
@[simp] theorem setMem_mem (s : State) (v : Memory) : (s.setMem v).mem = v := rfl
@[simp] theorem setMem_run (s : State) (v : Memory) : (s.setMem v).run = s.run := rfl

@[simp] theorem setRun_p (s : State) (v : RunState) : (s.setRun v).p = s.p := rfl
@[simp] theorem setRun_a (s : State) (v : RunState) : (s.setRun v).a = s.a := rfl
@[simp] theorem setRun_x (s : State) (v : RunState) : (s.setRun v).x = s.x := rfl
@[simp] theorem setRun_i (s : State) (v : RunState) : (s.setRun v).i = s.i := rfl
@[simp] theorem setRun_mem (s : State) (v : RunState) : (s.setRun v).mem = s.mem := rfl
@[simp] theorem setRun_run (s : State) (v : RunState) : (s.setRun v).run = v := rfl

theorem memRead_eq (s : State) (k : Addr) : s.memRead k = s.mem.read k := rfl

@[simp] theorem memWrite_mem (s : State) (k : Addr) (v : Word) : (s.memWrite k v).mem = s.mem.write k v := rfl
@[simp] theorem memWrite_p (s : State) (k : Addr) (v : Word) : (s.memWrite k v).p = s.p := rfl
@[simp] theorem memWrite_a (s : State) (k : Addr) (v : Word) : (s.memWrite k v).a = s.a := rfl
@[simp] theorem memWrite_x (s : State) (k : Addr) (v : Word) : (s.memWrite k v).x = s.x := rfl
@[simp] theorem memWrite_i (s : State) (k : Addr) (v : Word) : (s.memWrite k v).i = s.i := rfl
@[simp] theorem memWrite_run (s : State) (k : Addr) (v : Word) : (s.memWrite k v).run = s.run := rfl

@[simp] theorem fetch_p (s : State) : (fetch s).p = s.p + 1#11 := rfl
@[simp] theorem fetch_a (s : State) : (fetch s).a = s.a := rfl
@[simp] theorem fetch_x (s : State) : (fetch s).x = s.x := rfl
@[simp] theorem fetch_i (s : State) : (fetch s).i = s.mem.read s.p := rfl
@[simp] theorem fetch_mem (s : State) : (fetch s).mem = s.mem := rfl
@[simp] theorem fetch_run (s : State) : (fetch s).run = s.run := rfl

@[simp] theorem raise_p (k : BitVec 3) (s : State) : (raiseInvalidOpcode k s).p = s.p := rfl
@[simp] theorem raise_a (k : BitVec 3) (s : State) : (raiseInvalidOpcode k s).a = s.a := rfl
@[simp] theorem raise_x (k : BitVec 3) (s : State) : (raiseInvalidOpcode k s).x = s.x := rfl
@[simp] theorem raise_i (k : BitVec 3) (s : State) : (raiseInvalidOpcode k s).i = s.i := rfl
@[simp] theorem raise_mem (k : BitVec 3) (s : State) : (raiseInvalidOpcode k s).mem = s.mem := rfl
@[simp] theorem raise_run (k : BitVec 3) (s : State) :
    (raiseInvalidOpcode k s).run = .faulted ⟨.invalidOpcode, k, s.i, s.p - 1#11⟩ := rfl

@[simp] theorem resetWith_p (image : List Word) : (State.resetWith image).p = 0#11 := rfl
@[simp] theorem resetWith_a (image : List Word) : (State.resetWith image).a = 0#12 := rfl
@[simp] theorem resetWith_x (image : List Word) : (State.resetWith image).x = 0#12 := rfl
@[simp] theorem resetWith_i (image : List Word) : (State.resetWith image).i = 0#12 := rfl
@[simp] theorem resetWith_mem (image : List Word) : (State.resetWith image).mem = Memory.ofImage image := rfl
@[simp] theorem resetWith_run (image : List Word) : (State.resetWith image).run = .running := rfl

/-- Two states with equal fields are equal. -/
theorem State.ext_fields {s t : State} (hp : s.p = t.p) (ha : s.a = t.a) (hx : s.x = t.x) (hi : s.i = t.i)
    (hm : s.mem = t.mem) (hr : s.run = t.run) : s = t := by
  cases s; cases t; simp_all

end Sys2Proof.Machine
end

