-- ==== Sys2Proof/Laws/Exec.lean ====
section
/-! SUPPORT. What each meaning, a step and a request answer: the equations that later proofs cite instead of unfolding the
machine. -/

namespace Sys2Proof.Machine

theorem exec_imm (v : Word) (s : State) : exec (.imm v) s = .next ((s.setX s.a).setA v) := rfl

theorem exec_jump_suppressed {s : State} (h : s.x.getLsbD 11 = true) : exec .jump s = .next (s.setA s.x) := by
  show execJump s = _
  rw [execJump, jumpSuppressed, signBit, h]
  rfl

theorem exec_jump_taken {s : State} (h : s.x.getLsbD 11 = false) :
    exec .jump s = .next ((s.setP (lowAddr s.a)).setA (zext12 s.p)) := by
  show execJump s = _
  rw [execJump, jumpSuppressed, signBit, h]
  rfl

theorem exec_sub (s : State) : exec .sub s = .next (s.setA (s.x - s.a)) := rfl

theorem exec_nand (s : State) : exec .nand s = .next (s.setA (~~~(s.a &&& s.x))) := rfl

theorem exec_fetch (s : State) : exec .fetch s = .next (s.setA (s.mem.read (lowAddr s.a))) := rfl

theorem exec_store (s : State) : exec .store s = .next (s.memWrite (lowAddr s.a) s.x) := rfl

theorem exec_nop (s : State) : exec .nop s = .next s := rfl

theorem exec_invalid6 (s : State) : exec .invalid6 s = .next (raiseInvalidOpcode 6#3 s) := rfl

theorem exec_invalid7 (s : State) : exec .invalid7 s = .next (raiseInvalidOpcode 7#3 s) := rfl

theorem step_of_running {s : State} (h : s.run = .running) : step s = oneStep s := by
  unfold step
  rw [h]

theorem step_of_faulted {s : State} {info : FaultInfo} (h : s.run = .faulted info) : step s = ignoredStep s := by
  unfold step
  rw [h]

theorem stepEvents_of_running {s : State} (h : s.run = .running) :
    stepEvents s = fetchEvent s :: execEvents (decode (fetch s).i) (fetch s) := by
  unfold stepEvents
  rw [h]

theorem stepEvents_of_faulted {s : State} {info : FaultInfo} (h : s.run = .faulted info) : stepEvents s = [] := by
  unfold stepEvents
  rw [h]

/-- Requests after one that answers a next state. -/
theorem runRequests_cons {r : Request} {s t : State} (h : r.apply s = .next t) (rs : List Request) :
    runRequests (r :: rs) s = runRequests rs t := by
  rw [runRequests, h]

theorem traceRequests_cons {r : Request} {s t : State} (h : r.apply s = .next t) (rs : List Request) :
    traceRequests (r :: rs) s = r.events s ++ traceRequests rs t := by
  rw [traceRequests, h]

theorem runSteps_zero (s : State) : runSteps 0 s = .next s := rfl

theorem runSteps_succ {s t : State} (h : step s = .next t) (n : Nat) : runSteps (n + 1) s = runSteps n t :=
  runRequests_cons (r := .step) h _

theorem traceSteps_zero (s : State) : traceSteps 0 s = [] := rfl

theorem traceSteps_succ {s t : State} (h : step s = .next t) (n : Nat) :
    traceSteps (n + 1) s = stepEvents s ++ traceSteps n t :=
  traceRequests_cons (r := .step) h _

end Sys2Proof.Machine
end

