-- ==== Sys2Proof/Laws/Operands.lean ====
section
/-! SUPPORT. The operand forms as numbers: what the spec writes `mod 2048` and `zext_12` (spec/20_memory.md R42,
spec/42_jump.md R110). -/

namespace Sys2Proof.Machine

theorem lowAddr_toNat (v : Word) : (lowAddr v).toNat = v.toNat % 2048 := by
  simp [lowAddr]

theorem zext12_toNat (k : Addr) : (zext12 k).toNat = k.toNat := by
  have := k.isLt
  rw [zext12, BitVec.zeroExtend, BitVec.toNat_setWidth]
  omega

/-- The fetch's increment. -/
theorem nextP_toNat (p : Addr) : (p + 1#11).toNat = (p.toNat + 1) % 2048 := BitVec.toNat_add p 1#11

/-- Two words with the same low 11 bits name the same cell: `a[11]` is ignored (R42). -/
theorem lowAddr_congr {v w : Word} (h : v.toNat % 2048 = w.toNat % 2048) : lowAddr v = lowAddr w :=
  BitVec.eq_of_toNat_eq (by rw [lowAddr_toNat, lowAddr_toNat, h])

end Sys2Proof.Machine
end

