-- ==== Sys2Proof/Laws/PerInstr.lean ====
section
/-! SUPPORT. Per instruction: the fields that the decoder finds in the instruction's word (spec/30_encoding.md R61-R65). -/

namespace Sys2Proof.Laws.WordFields

/-- The opcode of an OP-format instruction (R64); none for format IMM. -/
def opcodeOf : Instr → Option (BitVec 3)
  | .imm _ => none
  | .jump => some 0
  | .sub => some 1
  | .nand => some 2
  | .fetch => some 3
  | .store => some 4
  | .nop => some 5
  | .invalid6 => some 6
  | .invalid7 => some 7

/-- The word of a well-formed instruction carries its format, then its opcode and the unused bits it was given (format OP)
or a field whose sign extension is its immediate (format IMM). -/
def Statement (i : Instr) : Prop :=
  i.wf = true → ∀ u : BitVec 8,
    match opcodeOf i with
    | none => immFlag (encodeWith u i) = true ∧ Instr.imm (sext12 (immField (encodeWith u i))) = i
    | some op =>
      immFlag (encodeWith u i) = false ∧ opField (encodeWith u i) = op ∧ (encodeWith u i).extractLsb' 0 8 = u

theorem imm (v : Word) : Statement (.imm v) := by
  intro h u
  have hv : v.getLsbD 11 = v.getLsbD 10 := by simpa [Instr.wf] using h
  refine ⟨?_, congrArg Instr.imm (BitVec.eq_of_getLsbD_eq fun j hj => ?_)⟩
  · rw [immFlag, encodeWith, getLsbD_immWord]
    rfl
  · rw [getLsbD_sext12 _ _ hj, immField, encodeWith]
    simp only [BitVec.getLsbD_extractLsb', getLsbD_immWord]
    by_cases h' : j < 11
    · simp [h']
    · obtain rfl : j = 11 := by omega
      simpa using hv.symm

theorem jump : Statement .jump := fun _ u => fields_opWord 0#4 u
theorem sub : Statement .sub := fun _ u => fields_opWord 1#4 u
theorem nand : Statement .nand := fun _ u => fields_opWord 2#4 u
theorem fetch : Statement .fetch := fun _ u => fields_opWord 3#4 u
theorem store : Statement .store := fun _ u => fields_opWord 4#4 u
theorem nop : Statement .nop := fun _ u => fields_opWord 5#4 u
theorem invalid6 : Statement .invalid6 := fun _ u => fields_opWord 6#4 u
theorem invalid7 : Statement .invalid7 := fun _ u => fields_opWord 7#4 u

end Sys2Proof.Laws.WordFields
end

