-- ==== Sys2Proof/Laws/Step.lean ====
section
/-! SUPPORT. Everything an execute part and a step can do, said once; and the host's run of the machine is the model's. -/

namespace Sys2Proof.Machine

/-- If an instruction answers a next state, it is one of these instructions and the state is this one. -/
theorem exec_next_cases {i : Instr} {s t : State} (h : exec i s = .next t) :
    (∃ v, i = .imm v ∧ t = (s.setX s.a).setA v) ∨
    (i = .jump ∧ s.x.getLsbD 11 = true ∧ t = s.setA s.x) ∨
    (i = .jump ∧ s.x.getLsbD 11 = false ∧ t = (s.setP (lowAddr s.a)).setA (zext12 s.p)) ∨
    (i = .sub ∧ t = s.setA (s.x - s.a)) ∨
    (i = .nand ∧ t = s.setA (~~~(s.a &&& s.x))) ∨
    (i = .fetch ∧ t = s.setA (s.mem.read (lowAddr s.a))) ∨
    (i = .store ∧ t = s.memWrite (lowAddr s.a) s.x) ∨
    (i = .nop ∧ t = s) ∨
    (i = .invalid6 ∧ t = raiseInvalidOpcode 6#3 s) ∨
    (i = .invalid7 ∧ t = raiseInvalidOpcode 7#3 s) := by
  cases i with
  | imm v => rw [exec_imm] at h; cases h; simp
  | jump =>
    cases hx : s.x.getLsbD 11
    · rw [exec_jump_taken hx] at h; cases h; simp
    · rw [exec_jump_suppressed hx] at h; cases h; simp
  | sub => rw [exec_sub] at h; cases h; simp
  | nand => rw [exec_nand] at h; cases h; simp
  | fetch => rw [exec_fetch] at h; cases h; simp
  | store => rw [exec_store] at h; cases h; simp
  | nop => rw [exec_nop] at h; cases h; simp
  | invalid6 => rw [exec_invalid6] at h; cases h; simp
  | invalid7 => rw [exec_invalid7] at h; cases h; simp

/-- If a step answers a next state, either it was taken in FAULTED and changed nothing, or it executed the decoded word on
the fetched state. -/
theorem step_next_cases {s t : State} (h : step s = .next t) :
    (∃ info, s.run = .faulted info ∧ t = s) ∨
    (s.run = .running ∧ exec (decode (s.mem.read s.p)) (fetch s) = .next t) := by
  cases hr : s.run with
  | running => exact .inr ⟨rfl, by rw [step_of_running hr] at h; exact h⟩
  | faulted info =>
    rw [step_of_faulted hr] at h
    cases h
    exact .inl ⟨info, rfl, rfl⟩

/-- The host's run, one step at a time. -/
theorem core_run_succ {s t : State} (h : step s = .next t) (n : Nat) :
    Sys2Proof.core.run (n + 1) s = Sys2Proof.core.run n t := by
  have unfold_once : ∀ (M : Host.Core) (s t : M.State), M.step s = .next t → M.run (n + 1) s = M.run n t := by
    intro M s t h
    simp only [Host.Core.run, h]
  exact unfold_once Sys2Proof.core s t h

/-- `runSteps` is the host's own run of the machine. -/
theorem runSteps_eq_core_run (n : Nat) {s t : State} (h : runSteps n s = .next t) :
    Sys2Proof.core.run n s = .next t := by
  induction n generalizing s with
  | zero => exact h
  | succ n ih =>
    cases hs : step s with
    | next u =>
      rw [runSteps_succ hs] at h
      exact (core_run_succ hs n).trans (ih h)
    | fault f => exact nomatch f
    | refused r =>
      simp [runSteps, List.replicate_succ, runRequests, Request.apply, hs] at h

end Sys2Proof.Machine
end

