-- ==== Sys2Proof/Tests/Slice0.lean ====
section
/-! SUPPORT. Tests: words written out from the spec's encodings, one-step vectors and expected values taken from
spec/95_test_vectors.md (their ids in the comments), and for every obligation with hypotheses a witness that meets them. -/

namespace Sys2Proof.Tests

open Sys2Proof.Machine Sys2Proof.Claims

/-- A state in RUN with the word `w` at `M[p]` and `M[k] = v` (at an address above `p`). -/
def sample (p : Addr) (w a x : Word) (k : Addr) (v : Word) : State :=
  { p := p, a := a, x := x, i := 0, mem := (Memory.write [] p w).write k v, run := .running }

/-- The state after one step. -/
def after (s : State) : Option State :=
  match step s with
  | .next t => some t
  | .fault _ => none
  | .refused _ => none

def regs (t : State) : Addr × Word × Word := (t.p, t.a, t.x)

/-! ### Well-formedness: a term the check refuses -/

/-- R65: 0x400 and 0xBFF "cannot be produced by an immediate". -/
theorem test_wf_refuses_unreachable_immediates :
    Instr.wf (.imm 0x400) = false ∧ Instr.wf (.imm 0xBFF) = false ∧ Instr.wf (.imm 0x3FF) = true := by decide

/-! ### Decoding: words written bit by bit from the encodings of spec/30_encoding.md (D1-D16) -/

theorem test_decode_imm : decode 0b1_01111111111#12 = .imm 0x3FF ∧ decode 0b1_10000000000#12 = .imm 0xC00 := by decide
theorem test_decode_jump : decode 0b0_000_00000000#12 = .jump ∧ decode 0b0_000_11111111#12 = .jump := by decide
theorem test_decode_sub : decode 0b0_001_11111111#12 = .sub := by decide
theorem test_decode_nand : decode 0b0_010_00000000#12 = .nand := by decide
theorem test_decode_fetch : decode 0b0_011_00000000#12 = .fetch := by decide
theorem test_decode_store : decode 0b0_100_00000000#12 = .store := by decide
theorem test_decode_nop : decode 0b0_101_10101011#12 = .nop := by decide
theorem test_decode_invalid : decode 0b0_110_00000000#12 = .invalid6 ∧ decode 0b0_111_11111111#12 = .invalid7 := by decide

theorem test_table_word : decodeTableWord 16 0x4FF = some .store ∧ decodeTableWord 16 0x1000 = none := by decide

/-- R69's words. -/
theorem test_encode : encode (.imm 0xC05) = 0xC05 ∧ encode .store = 0x400 ∧ encode .nop = 0x500 := by decide

/-! ### One step of each instruction -/

/-- I1. -/
theorem test_imm_saves_old_a :
    (after (sample 0 0x801 0x123 0x456 9 0)).map regs = some (1, 0x001, 0x123) := by decide
/-- I7: at 2047, `p` wraps. -/
theorem test_imm_at_top :
    (after (sample 2047 0x9AB 0x042 0 9 0)).map regs = some (0, 0x1AB, 0x042) := by decide
/-- J2. -/
theorem test_jump_suppressed :
    (after (sample 10 0x000 0x020 0xFFF 11 0)).map regs = some (11, 0xFFF, 0xFFF) := by decide
/-- J6: `a[11]` is no part of the target. -/
theorem test_jump_taken :
    (after (sample 10 0x000 0x805 0x001 11 0)).map regs = some (5, 0x00B, 0x001) := by decide
/-- S3: the order is `x - a`. -/
theorem test_sub_order : (after (sample 3 0x100 0x003 0x005 9 0)).map regs = some (4, 0x002, 0x005) := by decide
/-- S6. -/
theorem test_sub_wraps : (after (sample 3 0x100 0xFFF 0x7FF 9 0)).map regs = some (4, 0x800, 0x7FF) := by decide
/-- N5. -/
theorem test_nand : (after (sample 3 0x200 0x0F0 0x3CC 9 0)).map regs = some (4, 0xF3F, 0x3CC) := by decide
/-- N8. -/
theorem test_nand_sign : (after (sample 3 0x200 0x800 0x800 9 0)).map regs = some (4, 0x7FF, 0x800) := by decide
/-- Q1. -/
theorem test_nop_at_top : (after (sample 2047 0x500 0x012 0x034 9 0)).map regs = some (0, 0x012, 0x034) := by decide
/-- L2: `a[11]` ignored. -/
theorem test_fetch : (after (sample 20 0x300 0x864 0 100 0x2A5)).map regs = some (21, 0x2A5, 0) := by decide
/-- L4: a FETCH of its own word. -/
theorem test_fetch_own_word : (after (sample 20 0x300 0x014 0 100 0)).map regs = some (21, 0x300, 0) := by decide
/-- T2. -/
theorem test_store :
    (after (sample 20 0x400 0x864 0xABC 100 0x111)).map (fun t => (t.mem.read 100, t.mem.read 20, t.a)) =
      some (0xABC, 0x400, 0x864) ∧
    stepEvents (sample 20 0x400 0x864 0xABC 100 0x111) = [.fetch 20, .store 100 0xABC] := by decide
/-- T4: a STORE over itself. -/
theorem test_store_own_cell :
    (after (sample 20 0x400 0x014 0x123 100 0)).map (fun t => (t.mem.read 20, t.i)) = some (0x123, 0x400) := by decide
/-- X3. -/
theorem test_invalid6 :
    (after (sample 5 0x6FF 0x111 0x222 9 0)).map (fun t => (regs t, t.run)) =
      some ((6, 0x111, 0x222), .faulted ⟨.invalidOpcode, 6, 0x6FF, 5⟩) := by decide
/-- X4: at 2047. -/
theorem test_invalid7_at_top :
    (after (sample 2047 0x7AB 0x111 0x222 9 0)).map (fun t => (regs t, t.run)) =
      some ((0, 0x111, 0x222), .faulted ⟨.invalidOpcode, 7, 0x7AB, 2047⟩) := by decide
/-- X5: a second step changes nothing. -/
theorem test_faulted_step_ignored :
    (after (sample 5 0x600 0x111 0x222 9 0)).bind after = after (sample 5 0x600 0x111 0x222 9 0) := by decide

/-- M4: integers reduced modulo 4096, and words of zero not listed. -/
theorem test_image_reduced :
    Memory.ofImage (reduceImage [4096, 4097, -1, 5000]) = [(1, 0x001), (2, 0xFFF), (3, 0x388)] := by decide
/-- Writing the word an unlisted cell reads as removes the cell. -/
theorem test_write_keeps_the_form :
    Memory.write [(3, 1), (5, 2)] 4 7 = [(3, 1), (4, 7), (5, 2)] ∧ Memory.write [(3, 1), (5, 2)] 3 0 = [(5, 2)] := by
  decide
/-- The interface's placing of a word: a SUB run first after reset, from a table word in two bytes. -/
theorem test_placed_word_runs :
    (after (State.withFetchWord { State.reset with a := 1 } 16 0x100)).map regs = some (1, 0xFFF, 0) := by decide
/-- R69: two lines of program P4, with a label for its target. -/
theorem test_assemble :
    assemble [⟨none, .imm (.value (-1019))⟩, ⟨none, .imm (.label 1)⟩, ⟨some 1, .word 0x600⟩] =
      some [0xC05, 0x802, 0x600] := by decide

/-! ### Witnesses: every obligation's hypotheses can be met -/

theorem witness_JumpRightAfterResetGoesToZero :
    (List.getD [0x0FF#12] 0 0#12).toNat < 0x100 ∧ (List.getD ([] : List Word) 0 0#12).toNat < 0x100 := by decide

theorem witness_DecodeEncodeRoundTrip : Instr.wf (.imm 0xC00) = true ∧ Instr.wf .store = true := by decide

/-- Both ends of every range. -/
theorem witness_DecodeByWordRange :
    (0x0FF#12).toNat < 0x100 ∧ (0x100 ≤ (0x100#12).toNat ∧ (0x1FF#12).toNat < 0x200) ∧
    (0x200 ≤ (0x200#12).toNat ∧ (0x2FF#12).toNat < 0x300) ∧ (0x300 ≤ (0x300#12).toNat ∧ (0x3FF#12).toNat < 0x400) ∧
    (0x400 ≤ (0x400#12).toNat ∧ (0x4FF#12).toNat < 0x500) ∧ (0x500 ≤ (0x500#12).toNat ∧ (0x5FF#12).toNat < 0x600) ∧
    (0x600 ≤ (0x600#12).toNat ∧ (0x6FF#12).toNat < 0x700) ∧ (0x700 ≤ (0x700#12).toNat ∧ (0x7FF#12).toNat < 0x800) ∧
    (0x800 ≤ (0x800#12).toNat ∧ 0x800 ≤ (0xFFF#12).toNat) := by decide

theorem witness_ImmediateValueOfWord : (0x800#12).getLsbD 11 = true ∧ (0xFFF#12).getLsbD 11 = true := by decide

theorem witness_UnusedBitsDoNotDecode :
    (0x5AB#12).getLsbD 11 = false ∧ (0x500#12).getLsbD 11 = false ∧
      (0x5AB#12).extractLsb' 8 3 = (0x500#12).extractLsb' 8 3 := by decide

theorem witness_AssemblerWordsDecodeToTheirMnemonics :
    ((-1024 : Int) ≤ -1024 ∧ (1023 : Int) ≤ 1023) ∧ ((-1025 : Int) < -1024 ∧ (1023 : Int) < 1024) ∧
    labelAddr 7 0 [⟨none, .nop⟩, ⟨some 7, .jump⟩] = some 1 ∧
    labelAddr 7 0 [⟨some 7, .jump⟩] = some 0 := by decide

theorem witness_ImmediateLoadSavesOldAccumulator :
    (0xC02#12) &&& 0x800#12 = 0x800#12 ∧ (∃ s t, exec .sub s = .next t) ∧ (∀ v, Instr.sub ≠ .imm v) :=
  ⟨by decide, ⟨State.reset, _, rfl⟩, fun _ => nofun⟩

theorem witness_JumpLinksOnNonNegativeX :
    (0x0FF#12) &&& 0xF00#12 = 0x000#12 ∧ (sample 10 0 0x123 0x800 11 0).x.getLsbD 11 = true ∧
      (sample 10 0 0x123 0x7FF 11 0).x.getLsbD 11 = false := by decide

theorem witness_SubtractsAccumulatorFromX : (0x1FF#12) &&& 0xF00#12 = 0x100#12 := by decide
theorem witness_NandsEveryBit : (0x2FF#12) &&& 0xF00#12 = 0x200#12 := by decide

theorem witness_NoOpOnlyFetches :
    (0x5AB#12) &&& 0xF00#12 = 0x500#12 ∧ (sample 2047 0x5AB 1 2 9 0).run = .running ∧
      decode ((sample 2047 0x5AB 1 2 9 0).mem.read 2047) = .nop := by decide

theorem witness_FetchLoadsAddressedCell :
    (0x3FF#12) &&& 0xF00#12 = 0x300#12 ∧ (5#11).toNat = (0x805#12).toNat % 2048 := by decide

theorem witness_StoreWritesAddressedCellOnly :
    (0x4FF#12) &&& 0xF00#12 = 0x400#12 ∧ 21#11 ≠ dataAddr (sample 20 0x400 0x014 1 100 0) := by decide

theorem witness_InvalidEntersFaultedWithRecord :
    (0x6FF#12) &&& 0xF00#12 = 0x600#12 ∧ (0x7FF#12) &&& 0xF00#12 = 0x700#12 ∧
    (Instr.invalid6 = .invalid6 ∧ 6#3 = 6#3 ∨ Instr.invalid6 = .invalid7 ∧ 6#3 = 7#3) := by decide

theorem witness_StoreThenFetchRestoresValue :
    (0x064#12).toNat % 2048 = (sample 20 0x400 0x864 2 100 0).a.toNat % 2048 := by decide

theorem witness_StepRunsDecodedInstruction :
    (sample 10 0x1FF 3 5 11 0).run = .running ∧ Instr.wf .sub = true ∧
      (sample 10 0x1FF 3 5 11 0).mem.read 10 = encodeWith 0xFF .sub := by decide

theorem witness_EveryStepFetchesFirst : (sample 2047 0x600 3 5 11 0).run = .running := by decide

/-- The state vector X1 leaves. -/
def faulted : State :=
  { sample 5 0x600 0x111 0x222 9 0 with p := 6, i := 0x600, run := .faulted ⟨.invalidOpcode, 6, 0x600, 5⟩ }

theorem witness_FaultedStepHasNoEffect : faulted.run = .faulted ⟨.invalidOpcode, 6, 0x600, 5⟩ := by decide

theorem witness_OnlyResetLeavesFaulted :
    faulted.run = .faulted ⟨.invalidOpcode, 6, 0x600, 5⟩ ∧ ∀ image, Request.reset image ∉ [Request.step, Request.step] :=
  ⟨by decide, by simp⟩

theorem witness_ExactlyInvalidWordsAreFatal :
    (sample 5 0x600 1 2 9 0).run = .running ∧ ((after (sample 5 0x600 1 2 9 0)).map State.run ≠ some .running) ∧
      ((after (sample 5 0x7FF 1 2 9 0)).map State.run ≠ some .running) ∧
      ((after (sample 5 0x5FF 1 2 9 0)).map State.run = some .running) ∧
      ((after (sample 5 0x800 1 2 9 0)).map State.run = some .running) := by decide

theorem witness_FaultIsPrecise :
    (sample 5 0x600 1 2 9 0).run = .running ∧ (sample 5 0x600 1 2 9 0).mem.read 5 = 0x600#12 ∧
      (sample 2047 0x7FF 1 2 9 0).mem.read 2047 = 0x7FF#12 ∧
      0x600 ≤ (0x600#12).toNat ∧ (0x600#12).toNat ≤ 0x7FF ∧ 0x600 ≤ (0x7FF#12).toNat ∧ (0x7FF#12).toNat ≤ 0x7FF := by
  decide

theorem witness_EventsOfAStep :
    (∃ t, step faulted = .next t ∧ faulted.run ≠ .running) ∧
    (∃ t, step (sample 20 0x300 1 2 100 0) = .next t ∧ (sample 20 0x300 1 2 100 0).run = .running ∧
      decode ((sample 20 0x300 1 2 100 0).mem.read 20) ≠ .store) ∧
    (∃ t, step (sample 20 0x4FF 1 2 100 0) = .next t ∧ (sample 20 0x4FF 1 2 100 0).run = .running ∧
      decode ((sample 20 0x4FF 1 2 100 0).mem.read 20) = .store) :=
  ⟨⟨_, rfl, by decide⟩, ⟨_, rfl, by decide⟩, ⟨_, rfl, by decide⟩⟩

theorem witness_EveryStepKeepsTheInvariant :
    (∃ t, (sample 20 0x400 0x064 2 100 7).Inv ∧ step (sample 20 0x400 0x064 2 100 7) = .next t) ∧
    (∃ t, faulted.Inv ∧ step faulted = .next t) :=
  ⟨⟨_, ⟨by decide, trivial⟩, rfl⟩, ⟨_, ⟨by decide, by simp [State.recordTrue, faulted]; decide⟩, rfl⟩⟩

theorem witness_CanonicalMemoriesReadAlikeAreEqual :
    Memory.wf [(0, 1), (2047, 2)] ∧ Memory.wf (Memory.write [(0, 1)] 2047 2) ∧
      ∀ k, Memory.read [(0, 1), (2047, 2)] k = Memory.read (Memory.write [(0, 1)] 2047 2) k :=
  ⟨by decide, by decide, fun k => congrArg (fun m => Memory.read m k) (by decide)⟩

theorem witness_OnlyImageLoadAndStoreWriteMemory :
    (∃ t, Request.apply .step (sample 20 0x400 0x064 2 100 7) = .next t ∧
      t.mem.read 100 ≠ (sample 20 0x400 0x064 2 100 7).mem.read 100) ∧
    (∃ t, Request.apply (.reset []) (sample 20 0x400 0x064 2 100 7) = .next t ∧
      t.mem.read 100 ≠ (sample 20 0x400 0x064 2 100 7).mem.read 100) :=
  ⟨⟨_, rfl, by decide⟩, ⟨_, rfl, by decide⟩⟩

theorem witness_OnlyImmediateLoadWritesX :
    ∃ t, step (sample 0 0x801 0x123 0x456 9 0) = .next t ∧ t.x ≠ (sample 0 0x801 0x123 0x456 9 0).x :=
  ⟨_, rfl, by decide⟩

theorem witness_OnlyTakenJumpRedirectsP :
    (∃ t, step (sample 10 0 0x805 0x7FF 11 0) = .next t ∧ (sample 10 0 0x805 0x7FF 11 0).run = .running ∧
      decode ((sample 10 0 0x805 0x7FF 11 0).mem.read 10) = .jump ∧ (sample 10 0 0x805 0x7FF 11 0).x.getLsbD 11 = false) ∧
    (∃ t, step (sample 10 0 0x805 0x800 11 0) = .next t ∧ (sample 10 0 0x805 0x800 11 0).run = .running ∧
      ¬ (decode ((sample 10 0 0x805 0x800 11 0).mem.read 10) = .jump ∧
        (sample 10 0 0x805 0x800 11 0).x.getLsbD 11 = false)) :=
  ⟨⟨_, rfl, by decide⟩, ⟨_, rfl, by decide⟩⟩

theorem witness_ProgramsCannotReadI :
    (sample 10 0 0x805 0x7FF 11 0).run = .running ∧ Instr.jump ≠ .invalid6 ∧ Instr.jump ≠ .invalid7 := by decide

/-- Two states that differ in a cell the FETCH does not read. -/
theorem witness_StepReadsOnlyItsTwoCells :
    let s := sample 20 0x300 0x064 2 100 7
    let s' := { s with mem := s.mem.write 300 9 }
    s.run = .running ∧ s'.run = .running ∧ s.p = s'.p ∧ s.a = s'.a ∧ s.x = s'.x ∧
      s.mem.read s.p = s'.mem.read s.p ∧
      (decode (s.mem.read s.p) = .fetch → s.mem.read (dataAddr s) = s'.mem.read (dataAddr s)) := by decide

theorem witness_StoredWordIsFetchedNext :
    ((sample 20 0x400 0x014 2 100 7).run = .running ∧ decode ((sample 20 0x400 0x014 2 100 7).mem.read 20) = .store ∧
      dataAddr (sample 20 0x400 0x014 2 100 7) = 20#11) ∧
    ((sample 2047 0x400 0x800 2 100 7).run = .running ∧ decode ((sample 2047 0x400 0x800 2 100 7).mem.read 2047) = .store ∧
      dataAddr (sample 2047 0x400 0x800 2 100 7) = 2047#11 + 1#11) := by decide

theorem witness_CellsHoldTheirLastStore : ∃ t, runSteps 2 (sample 20 0x400 0x064 2 100 7) = .next t := ⟨_, rfl⟩

theorem witness_SafeRunMeetsNoInvalidWord :
    State.isRunning State.reset ∧ ∃ t, runSteps 1 State.reset = .next t := ⟨rfl, _, rfl⟩

/-- The expansions placed at address 2046, across the end of memory, and elsewhere. -/
theorem witness_PseudoBranchEffects :
    (let s := { State.reset with p := 2046, mem := [(0, 0x000), (2046, 0x800), (2047, 0xFFF)] };
      s.run = .running ∧ placedAt s.mem s.p (Pseudo.goto 2047).expand ∧ placedAt s.mem s.p (Pseudo.call 2047).expand) ∧
    (let s := { State.reset with a := 0x7FF, mem := Memory.ofImage [0x803, 0x000] };
      s.run = .running ∧ placedAt s.mem s.p (Pseudo.brnn 3).expand ∧ s.a.getLsbD 11 = false) ∧
    (let s := { State.reset with a := 0x800, mem := Memory.ofImage [0x803, 0x000] };
      s.run = .running ∧ placedAt s.mem s.p (Pseudo.brnn 3).expand ∧ s.a.getLsbD 11 = true) :=
  ⟨⟨rfl, ⟨by decide, by decide, by decide, trivial⟩, ⟨by decide, by decide, by decide, trivial⟩⟩,
    ⟨rfl, ⟨by decide, by decide, trivial⟩, by decide⟩, ⟨rfl, ⟨by decide, by decide, trivial⟩, by decide⟩⟩

theorem witness_PseudoMemoryEffects :
    (let s := { State.reset with mem := Memory.ofImage [0xBFF, 0x300] };
      s.run = .running ∧ (1023#11).toNat ≤ 1023 ∧ placedAt s.mem s.p (Pseudo.loadm 1023).expand) ∧
    (let s := { State.reset with mem := Memory.ofImage [0x800, 0x400] };
      s.run = .running ∧ (0#11).toNat ≤ 1023 ∧ placedAt s.mem s.p (Pseudo.storem 0).expand) ∧
    (let s := { State.reset with mem := Memory.ofImage [0x800, 0x828, 0x300, 0x000] };
      s.run = .running ∧ (40#11).toNat ≤ 1023 ∧ placedAt s.mem s.p (Pseudo.ret 40).expand) :=
  ⟨⟨rfl, by decide, by decide, by decide, trivial⟩, ⟨rfl, by decide, by decide, by decide, trivial⟩,
    ⟨rfl, by decide, by decide, by decide, by decide, by decide, trivial⟩⟩

theorem witness_PlacedWordRunsNext : decodeTableWord 16 0xFFF = some (.imm 0xFFF) ∧ decodeTableWord 12 0 = some .jump := by
  decide

end Sys2Proof.Tests
end

/-! Proofs about the state's registers (spec/10_state.md R21, R23, R24): which instruction can write `x` and redirect `p`,
and which instructions read `x` and `i`. -/

namespace Sys2Proof.Machine

/-! ### The registers an execute part leaves alone -/

/-- Only an immediate load writes `x` (R100). -/
theorem exec_keeps_x {i : Instr} {s t : State} (h : exec i s = .next t) (hi : ∀ v, i ≠ .imm v) : t.x = s.x := by
  rcases exec_next_cases h with ⟨v, rfl, -⟩ | ⟨-, -, rfl⟩ | ⟨-, -, rfl⟩ | ⟨-, rfl⟩ | ⟨-, rfl⟩ | ⟨-, rfl⟩ | ⟨-, rfl⟩ |
    ⟨-, rfl⟩ | ⟨-, rfl⟩ | ⟨-, rfl⟩
  · exact absurd rfl (hi v)
  all_goals rfl

/-- Only a taken JUMP writes `p` after the fetch (R110). -/
theorem exec_keeps_p {i : Instr} {s t : State} (h : exec i s = .next t)
    (hi : ¬ (i = .jump ∧ s.x.getLsbD 11 = false)) : t.p = s.p := by
  rcases exec_next_cases h with ⟨-, -, rfl⟩ | ⟨-, -, rfl⟩ | ⟨hj, hx, -⟩ | ⟨-, rfl⟩ | ⟨-, rfl⟩ | ⟨-, rfl⟩ | ⟨-, rfl⟩ |
    ⟨-, rfl⟩ | ⟨-, rfl⟩ | ⟨-, rfl⟩
  case inr.inr.inl => exact absurd ⟨hj, hx⟩ hi
  all_goals rfl

/-! ### The registers an execute part does not read -/

/-- An instruction that is not Invalid carries any word in `i` through its execute part. An Invalid one copies `i` into the
fault record (R162). -/
theorem exec_carries_i {i : Instr} (h6 : i ≠ .invalid6) (h7 : i ≠ .invalid7) (s : State) (w : Word) :
    ∃ t, exec i s = .next t ∧ exec i { s with i := w } = .next { t with i := w } := by
  cases i with
  | imm v => exact ⟨_, exec_imm v s, exec_imm v _⟩
  | jump =>
    cases hx : s.x.getLsbD 11 with
    | false => exact ⟨_, exec_jump_taken hx, exec_jump_taken hx⟩
    | true => exact ⟨_, exec_jump_suppressed hx, exec_jump_suppressed hx⟩
  | sub => exact ⟨_, exec_sub s, exec_sub _⟩
  | nand => exact ⟨_, exec_nand s, exec_nand _⟩
  | fetch => exact ⟨_, exec_fetch s, exec_fetch _⟩
  | store => exact ⟨_, exec_store s, exec_store _⟩
  | nop => exact ⟨_, exec_nop s, exec_nop _⟩
  | invalid6 => exact absurd rfl h6
  | invalid7 => exact absurd rfl h7

/-- The fetch overwrites `i` before anything can read it (R83). -/
theorem fetch_ignores_i (s : State) (w : Word) : fetch { s with i := w } = fetch s := rfl

/-! ### The obligations -/

/-- Settles O34: no step in FAULTED and no execute part but the immediate load's writes `x`. -/
theorem onlyImmediateLoadWritesX : Obligations.OnlyImmediateLoadWritesX := by
  intro s t h hx
  obtain ⟨-, -, rfl⟩ | ⟨hrun, hexec⟩ := step_next_cases h
  · exact absurd rfl hx
  · obtain ⟨v, hv⟩ : ∃ v, decode (s.mem.read s.p) = .imm v := by
      by_contra! hno
      exact hx ((exec_keeps_x hexec hno).trans (fetch_x s))
    rw [hv, exec_imm] at hexec
    cases hexec
    exact ⟨hrun, ⟨v, hv, rfl⟩, rfl⟩

/-- Settles O35: the fetch advances `p`, and after it only a taken JUMP writes it. -/
theorem onlyTakenJumpRedirectsP : Obligations.OnlyTakenJumpRedirectsP := by
  intro s t hrun h
  have hexec : exec (decode (s.mem.read s.p)) (fetch s) = .next t := by
    rwa [step_of_running hrun] at h
  constructor
  · rintro ⟨hj, hx⟩
    rw [hj, exec_jump_taken (s := fetch s) hx] at hexec
    cases hexec
    exact lowAddr_toNat s.a
  · intro hno
    rw [exec_keeps_p hexec hno]
    exact nextP_toNat s.p

/-- Settles O37: a step's fetch overwrites `i` first, and no execute part but an Invalid word's reads it. -/
theorem programsCannotReadI : Obligations.ProgramsCannotReadI := by
  refine ⟨fun s w hrun => ?_, fun i s w h6 h7 => exec_carries_i h6 h7 s w⟩
  have hrun' : ({ s with i := w } : State).run = .running := hrun
  constructor
  · rw [step_of_running hrun', step_of_running hrun, oneStep, oneStep, fetch_ignores_i]
  · rw [stepEvents_of_running hrun', stepEvents_of_running hrun, fetch_ignores_i]
    rfl

/-- Settles O36: the equations of the three instructions do not name the old `x`. -/
theorem fetchNoOpImmediateIgnoreX : Obligations.FetchNoOpImmediateIgnoreX := fun s _ v =>
  ⟨⟨_, exec_fetch s, exec_fetch _⟩, ⟨_, exec_nop s, exec_nop _⟩, ⟨_, exec_imm v s, exec_imm v _⟩⟩

end Sys2Proof.Machine

/-! Proofs about memory (spec/20_memory.md R49-R53): what writes it, what a step reads of it, and what its cells hold after
a run. -/

namespace Sys2Proof.Machine

open Sys2Proof.Claims

/-! ### What an execute part and a step write -/

/-- Every instruction but a STORE leaves the whole memory as it was (R49). -/
theorem exec_keeps_mem {i : Instr} {s t : State} (h : exec i s = .next t) (hi : i ≠ .store) : t.mem = s.mem := by
  rcases exec_next_cases h with ⟨-, -, rfl⟩ | ⟨-, -, rfl⟩ | ⟨-, -, rfl⟩ | ⟨-, rfl⟩ | ⟨-, rfl⟩ | ⟨-, rfl⟩ | ⟨hs, -⟩ |
    ⟨-, rfl⟩ | ⟨-, rfl⟩ | ⟨-, rfl⟩
  case inr.inr.inr.inr.inr.inr.inl => exact absurd hs hi
  all_goals rfl

/-- Every instruction but a STORE emits nothing after the fetch's event (R87). -/
theorem execEvents_of_ne_store {i : Instr} (s : State) (hi : i ≠ .store) : execEvents i s = [] := by
  cases i with
  | store => exact absurd rfl hi
  | _ => rfl

/-- A whole step of a STORE: the fetch, then the write of `x` to the cell `a mod 2048` (R141). -/
theorem step_of_store {s : State} (hrun : s.run = .running) (hs : decode (s.mem.read s.p) = .store) :
    step s = .next ((fetch s).memWrite (dataAddr s) s.x) := by
  rw [step_of_running hrun, oneStep, fetch_i, hs, exec_store]
  rfl

/-! ### Memory and the trace -/

/-- The last store of a trace in two parts is the second part's, if it has one. -/
theorem lastStore_append (k : Addr) (es fs : List Event) :
    lastStore k (es ++ fs) = (lastStore k fs).or (lastStore k es) := by
  induction es with
  | nil => simp [lastStore]
  | cons e es ih =>
    cases e with
    | fetch p => simpa [lastStore] using ih
    | store j v => simp [lastStore, ih, Option.or_assoc]

/-- After an execute part a cell holds what the StoreEvent to it says, or else what it held (R50, R87). -/
theorem exec_read_eq_lastStore {i : Instr} {s t : State} (h : exec i s = .next t) (k : Addr) :
    t.mem.read k = (lastStore k (execEvents i s)).getD (s.mem.read k) := by
  by_cases hi : i = .store
  · subst hi
    rw [exec_store] at h
    cases h
    rw [memWrite_mem, Memory.read_write]
    by_cases hk : lowAddr s.a = k <;> simp [execEvents, dataAddr, lastStore, hk]
  · rw [exec_keeps_mem h hi, execEvents_of_ne_store s hi]
    rfl

/-- The same over a whole step: the fetch's event concerns no cell, and in FAULTED nothing happens. -/
theorem step_read_eq_lastStore {s t : State} (h : step s = .next t) (k : Addr) :
    t.mem.read k = (lastStore k (stepEvents s)).getD (s.mem.read k) := by
  obtain ⟨info, hrun, rfl⟩ | ⟨hrun, hexec⟩ := step_next_cases h
  · rw [stepEvents_of_faulted hrun]
    rfl
  · rw [stepEvents_of_running hrun]
    exact exec_read_eq_lastStore hexec k

/-- A run of one step and more that answers a next state goes through the step's next state. -/
theorem runSteps_succ_next {n : Nat} {s t : State} (h : runSteps (n + 1) s = .next t) :
    ∃ u, step s = .next u ∧ runSteps n u = .next t := by
  cases hs : step s with
  | next u => exact ⟨u, rfl, by rwa [runSteps_succ hs] at h⟩
  | fault f => exact nomatch f
  | refused r => simp [runSteps, List.replicate_succ, runRequests, Request.apply, hs] at h

/-! ### What a step reads -/

/-- With equal registers, the fetched states differ in memory alone, and in memory as before. -/
theorem fetch_eq_setMem {s s' : State} (hp : s.p = s'.p) (ha : s.a = s'.a) (hx : s.x = s'.x) (hrun : s.run = s'.run)
    (hw : s.mem.read s.p = s'.mem.read s.p) : fetch s' = (fetch s).setMem s'.mem :=
  State.ext_fields (congrArg (· + 1#11) hp.symm) ha.symm hx.symm
    (by rw [fetch_i, setMem_i, fetch_i, hw, hp]) rfl hrun.symm

/-- Another memory, with the same word in the cell a FETCH reads, changes no register that an execute part leaves, and the
memories left agree wherever they agreed (R53). -/
theorem exec_setMem (i : Instr) (s : State) (m : Memory)
    (hread : i = .fetch → s.mem.read (dataAddr s) = m.read (dataAddr s)) :
    ∃ t m', exec i s = .next t ∧ exec i (s.setMem m) = .next (t.setMem m') ∧
      ∀ k, s.mem.read k = m.read k → t.mem.read k = m'.read k := by
  cases i with
  | imm v => exact ⟨_, m, exec_imm v s, exec_imm v _, fun _ h => h⟩
  | jump =>
    cases hx : s.x.getLsbD 11 with
    | false => exact ⟨_, m, exec_jump_taken hx, exec_jump_taken hx, fun _ h => h⟩
    | true => exact ⟨_, m, exec_jump_suppressed hx, exec_jump_suppressed hx, fun _ h => h⟩
  | sub => exact ⟨_, m, exec_sub s, exec_sub _, fun _ h => h⟩
  | nand => exact ⟨_, m, exec_nand s, exec_nand _, fun _ h => h⟩
  | fetch =>
    refine ⟨_, m, exec_fetch s, ?_, fun _ h => h⟩
    have hcell : s.mem.read (lowAddr s.a) = m.read (lowAddr s.a) := hread rfl
    rw [exec_fetch, hcell]
    rfl
  | store =>
    refine ⟨_, m.write (lowAddr s.a) s.x, exec_store s, exec_store _, fun k h => ?_⟩
    rw [memWrite_mem, Memory.read_write, Memory.read_write, h]
  | nop => exact ⟨_, m, exec_nop s, exec_nop _, fun _ h => h⟩
  | invalid6 => exact ⟨_, m, exec_invalid6 s, exec_invalid6 _, fun _ h => h⟩
  | invalid7 => exact ⟨_, m, exec_invalid7 s, exec_invalid7 _, fun _ h => h⟩

/-- The events of an execute part are made of registers alone. -/
theorem execEvents_setMem (i : Instr) (s : State) (m : Memory) : execEvents i (s.setMem m) = execEvents i s := by
  cases i <;> rfl

/-! ### The obligations -/

/-- Settles O40, by induction on the number of steps: the first step's events say what the cells hold when the rest of the
run begins, and a later store hides an earlier one. -/
theorem cellsHoldTheirLastStore : Obligations.CellsHoldTheirLastStore := by
  intro n
  induction n with
  | zero =>
    intro s t h k
    rw [runSteps_zero] at h
    cases h
    rfl
  | succ n ih =>
    intro s t h k
    obtain ⟨u, hstep, hrest⟩ := runSteps_succ_next h
    rw [traceSteps_succ hstep, lastStore_append, Option.getD_or, ← step_read_eq_lastStore hstep k]
    exact ih u t hrest k

/-- Settles O33: a step in FAULTED and every instruction but a STORE keep memory, and a STORE writes one cell. -/
theorem onlyImageLoadAndStoreWriteMemory : Obligations.OnlyImageLoadAndStoreWriteMemory := by
  intro r s t k h hne
  cases r with
  | reset image => exact .inl ⟨image, rfl⟩
  | step =>
    have hstep : step s = .next t := h
    obtain ⟨-, -, rfl⟩ | ⟨hrun, hexec⟩ := step_next_cases hstep
    · exact absurd rfl hne
    have hs : decode (s.mem.read s.p) = .store := by
      by_contra hno
      exact hne (by rw [exec_keeps_mem hexec hno, fetch_mem])
    rw [step_of_store hrun hs] at hstep
    cases hstep
    have hk : dataAddr s = k := by
      by_contra hother
      exact hne (Memory.read_write_other s.mem s.x hother)
    subst hk
    exact .inr ⟨rfl, hrun, hs, lowAddr_toNat s.a, Memory.read_write_same s.mem _ s.x⟩

/-- Settles O38: the fetched states differ in memory alone, and an execute part reads of it no more than a FETCH's cell. -/
theorem stepReadsOnlyItsTwoCells : Obligations.StepReadsOnlyItsTwoCells := by
  intro s s' hrun hrun' hp ha hx hw hcell
  have hfetch : fetch s' = (fetch s).setMem s'.mem := fetch_eq_setMem hp ha hx (hrun.trans hrun'.symm) hw
  obtain ⟨t, m', ht, ht', hagree⟩ := exec_setMem (decode (s.mem.read s.p)) (fetch s) s'.mem hcell
  refine ⟨t, t.setMem m', ?_, ?_, rfl, rfl, rfl, rfl, rfl, ?_, hagree⟩
  · rw [step_of_running hrun]
    exact ht
  · rw [step_of_running hrun', oneStep, hfetch]
    exact ht'
  · rw [stepEvents_of_running hrun, stepEvents_of_running hrun', hfetch, execEvents_setMem, fetchEvent, fetchEvent, hp]
    rfl

/-- Settles O39: a STORE keeps the fetched word in `i`, and the next fetch reads the cell it wrote. -/
theorem storedWordIsFetchedNext : Obligations.StoredWordIsFetchedNext := by
  intro s hrun hs
  refine ⟨_, step_of_store hrun hs, rfl, hrun, fun hown => ?_, fun hnext => ?_⟩
  · rw [memWrite_mem, hown, Memory.read_write_same]
  · generalize ht : (fetch s).memWrite (dataAddr s) s.x = t
    have hrun_t : t.run = .running := by rw [← ht]; exact hrun
    have hp : t.p = s.p + 1#11 := by rw [← ht]; rfl
    have hword : t.mem.read t.p = s.x := by rw [hp, ← hnext, ← ht]; exact Memory.read_write_same ..
    have hfetch : fetch t = { t with i := s.x, p := s.p + 2#11 } :=
      State.ext_fields (by rw [fetch_p, hp, BitVec.add_assoc]; rfl) rfl rfl hword rfl rfl
    rw [step_of_running hrun_t, oneStep, hfetch]

end Sys2Proof.Machine

/-! Proofs about the encoding (spec/30_encoding.md R60-R66, R69): the decoder by format and by word range, its round trip
with the encoder, and the values an immediate can have. -/

namespace Sys2Proof

open Sys2Proof.Laws

/-! ### The fields of a word by bits -/

theorem getLsbD_immField (w : Word) {j : Nat} (hj : j < 11) : (immField w).getLsbD j = w.getLsbD j := by
  rw [immField, BitVec.getLsbD_extractLsb', decide_eq_true hj, Bool.true_and, Nat.zero_add]

theorem getLsbD_opField (w : Word) {j : Nat} (hj : j < 3) : (opField w).getLsbD j = w.getLsbD (8 + j) := by
  rw [opField, BitVec.getLsbD_extractLsb', decide_eq_true hj, Bool.true_and]

/-- The bits 11:8 of an OP-format word: the opcode below, a clear format bit above. -/
theorem getLsbD_opHead (op : BitVec 3) (j : Nat) :
    BitVec.getLsbD (w := 4) (0#1 ++ op) j = (decide (j < 3) && op.getLsbD j) := by
  refine BitVec.getLsbD_append.trans ?_
  by_cases hj : j < 3 <;> simp [hj]

/-! ### The decoder by format -/

/-- R62, R65: an IMM-format word decodes to its sign-extended immediate field. -/
theorem decode_of_immFormat {w : Word} (h : immFlag w = true) : decode w = .imm (sext12 (immField w)) := by
  rw [decode, if_pos h]

/-- R63, R64: an OP-format word decodes by its opcode field alone. -/
theorem decode_of_opFormat {w : Word} (h : immFlag w = false) : decode w = decodeOp (opField w) := by
  simp [decode, h]

/-- The opcode map (R64) is inverse to `opcodeOf`. -/
theorem decodeOp_of_opcodeOf {i : Instr} {op : BitVec 3} (h : WordFields.opcodeOf i = some op) : decodeOp op = i := by
  cases i with
  | imm v => cases h
  | _ => cases h; rfl

theorem decodeOp_wf : ∀ op : BitVec 3, (decodeOp op).wf = true := by decide

theorem encode_decodeOp : ∀ op : BitVec 3, encode (decodeOp op) = (0#1 ++ op) ++ 0#8 := by decide

/-! ### The round trip -/

/-- The words of every well-formed instruction carry its fields: the laws per instruction, together. -/
theorem wordFields (i : Instr) : WordFields.Statement i := by
  cases i with
  | imm v => exact WordFields.imm v
  | jump => exact WordFields.jump
  | sub => exact WordFields.sub
  | nand => exact WordFields.nand
  | fetch => exact WordFields.fetch
  | store => exact WordFields.store
  | nop => exact WordFields.nop
  | invalid6 => exact WordFields.invalid6
  | invalid7 => exact WordFields.invalid7

theorem decode_encodeWith {i : Instr} (h : i.wf = true) (u : BitVec 8) : decode (encodeWith u i) = i := by
  have hfields := wordFields i h u
  cases hop : WordFields.opcodeOf i with
  | none =>
    rw [hop] at hfields
    obtain ⟨hflag, himm⟩ := hfields
    rw [decode_of_immFormat hflag, himm]
  | some op =>
    rw [hop] at hfields
    obtain ⟨hflag, hopField, -⟩ := hfields
    rw [decode_of_opFormat hflag, hopField, decodeOp_of_opcodeOf hop]

/-- A sign-extended field repeats bit 10 in bit 11, so what the decoder answers is well-formed (R65). -/
theorem decode_wf (w : Word) : (decode w).wf = true := by
  cases h : immFlag w with
  | true =>
    rw [decode_of_immFormat h, Instr.wf, getLsbD_sext12 _ 11 (by decide), getLsbD_sext12 _ 10 (by decide)]
    simp
  | false => rw [decode_of_opFormat h]; exact decodeOp_wf _

/-- Encoding drops the sign extension again and keeps the field. -/
theorem encode_imm_sext12 (v : BitVec 11) : encode (.imm (sext12 v)) = 1#1 ++ v := by
  have hfield : (sext12 v).extractLsb' 0 11 = v := by
    refine BitVec.eq_of_getLsbD_eq fun j hj => ?_
    simp [getLsbD_sext12 v j (by omega), hj]
  rw [encode, encodeWith, hfield]

/-- R62: an IMM-format word is the format bit above its immediate field. -/
theorem immWord_eq {w : Word} (h : immFlag w = true) : 1#1 ++ immField w = w := by
  refine BitVec.eq_of_getLsbD_eq fun j hj => ?_
  rw [getLsbD_immWord]
  by_cases hlow : j < 11
  · rw [if_pos hlow, getLsbD_immField w hlow]
  · obtain rfl : j = 11 := by omega
    simpa [immFlag] using h.symm

theorem getLsbD_opMask : ∀ j < 12, (0xF00#12).getLsbD j = decide (8 ≤ j) := by decide

/-- R63: an OP-format word with its unused bits cleared is the format bit and the opcode field above eight zeros. -/
theorem opWord_eq {w : Word} (h : immFlag w = false) : (0#1 ++ opField w) ++ 0#8 = w &&& 0xF00#12 := by
  refine BitVec.eq_of_getLsbD_eq fun j hj => ?_
  rw [getLsbD_opWord, getLsbD_opHead, BitVec.getLsbD_and, getLsbD_opMask j hj]
  by_cases hlow : j < 8
  · simp [hlow]
  obtain ⟨k, rfl⟩ : ∃ k, j = 8 + k := ⟨j - 8, by omega⟩
  by_cases hop : k < 3
  · simp [hop, ← getLsbD_opField w hop]
  · obtain rfl : k = 3 := by omega
    simpa [immFlag] using h.symm

theorem encode_decode (w : Word) : encode (decode w) = if w.getLsbD 11 then w else w &&& 0xF00#12 := by
  change _ = if immFlag w then w else _
  cases h : immFlag w with
  | true => rw [decode_of_immFormat h, encode_imm_sext12, immWord_eq h, if_pos rfl]
  | false => rw [decode_of_opFormat h, encode_decodeOp, opWord_eq h]; rfl

/-! ### The fields of a word as numbers -/

theorem immFlag_eq_decide (w : Word) : immFlag w = decide (0x800 ≤ w.toNat) := by
  rw [immFlag, ← BitVec.msb_eq_getLsbD_last w, BitVec.msb_eq_decide]

theorem opField_toNat (w : Word) : (opField w).toNat = w.toNat / 256 % 8 := by
  simp [opField, BitVec.extractLsb'_toNat, Nat.shiftRight_eq_div_pow]

theorem immField_eq_ofNat (w : Word) : immField w = BitVec.ofNat 11 w.toNat := by
  simp [immField, BitVec.extractLsb']

/-- R66, below 0x800: the 256 words from `k * 0x100` on decode by the opcode `k`. -/
theorem decode_of_opRange {w : Word} {k : Nat} (hk : k < 8) (hlow : k * 0x100 ≤ w.toNat)
    (hhigh : w.toNat < (k + 1) * 0x100) : decode w = decodeOp (BitVec.ofNat 3 k) := by
  have hflag : immFlag w = false := by
    rw [immFlag_eq_decide]
    exact decide_eq_false (by omega)
  have hop : opField w = BitVec.ofNat 3 k := by
    apply BitVec.eq_of_toNat_eq
    rw [opField_toNat, BitVec.toNat_ofNat]
    omega
  rw [decode_of_opFormat hflag, hop]

/-- R66, from 0x800 on. -/
theorem decode_of_immRange {w : Word} (h : 0x800 ≤ w.toNat) :
    decode w = .imm (sext12 (BitVec.ofNat 11 w.toNat)) := by
  rw [decode_of_immFormat (by rw [immFlag_eq_decide]; exact decide_eq_true h), immField_eq_ofNat]

/-! ### The values of an immediate -/

theorem getLsbD_immMask : ∀ j < 12, (0x7FF#12).getLsbD j = decide (j < 11) := by decide

theorem getLsbD_signMask : ∀ j < 12, (0x800#12).getLsbD j = decide (j = 11) := by decide

/-- R65: the immediate is the low 11 bits, with bit 11 set if bit 10 is. -/
theorem sext12_immField (w : Word) :
    sext12 (immField w) = if w.getLsbD 10 then 0x800#12 ||| (w &&& 0x7FF#12) else w &&& 0x7FF#12 := by
  refine BitVec.eq_of_getLsbD_eq fun j hj => ?_
  rw [getLsbD_sext12 _ j hj, getLsbD_immField w (j := 10) (by decide), apply_ite (BitVec.getLsbD · j)]
  simp only [BitVec.getLsbD_or, BitVec.getLsbD_and, getLsbD_immMask j hj, getLsbD_signMask j hj]
  by_cases hlow : j < 11
  · rw [if_pos hlow, getLsbD_immField w hlow]
    simp [hlow, hlow.ne]
  · obtain rfl : j = 11 := by omega
    simp

/-- R65: sign extension keeps the signed value of the 11-bit field. -/
theorem sext12_immField_toInt (w : Word) :
    (sext12 (immField w)).toInt =
      if w.toNat % 2048 < 1024 then (w.toNat % 2048 : Int) else (w.toNat % 2048 : Int) - 2048 := by
  rw [sext12, BitVec.toInt_signExtend_of_le (by decide), immField_eq_ofNat, BitVec.toInt_eq_toNat_cond,
    BitVec.toNat_ofNat]
  split <;> split <;> omega

/-- Exactly the well-formed values are immediates: the decoder answers no others, and each is the one of its own word. -/
theorem exists_decode_eq_imm_iff (v : Word) : (∃ w, decode w = .imm v) ↔ (Instr.imm v).wf = true := by
  constructor
  · rintro ⟨w, hw⟩
    rw [← hw]
    exact decode_wf w
  · intro h
    exact ⟨encode (.imm v), decode_encodeWith h 0#8⟩

/-- Bits 11 and 10 agree in the lowest and in the highest quarter of the words (R65). -/
theorem imm_wf_iff (v : Word) : (Instr.imm v).wf = true ↔ v.toNat ≤ 0x3FF ∨ 0xC00 ≤ v.toNat := by
  have hlt : v.toNat < 4096 := v.isLt
  rw [Instr.wf, beq_iff_eq, BitVec.getLsbD, BitVec.getLsbD, Nat.testBit_eq_decide_div_mod_eq,
    Nat.testBit_eq_decide_div_mod_eq, decide_eq_decide]
  omega

/-! ### The obligations -/

/-- Settles O5, from the fields of the encoder's words and the two formats of the decoder. -/
theorem decodeEncodeRoundTrip : Obligations.DecodeEncodeRoundTrip :=
  ⟨fun _ u h => decode_encodeWith h u, decode_wf, encode_decode⟩

/-- Settles O7: the bits and the signed value of a sign-extended field, and the well-formed values by their range. -/
theorem immediateValueOfWord : Obligations.ImmediateValueOfWord :=
  ⟨fun w h => ⟨_, decode_of_immFormat h, sext12_immField w, sext12_immField_toInt w⟩,
    fun v => (exists_decode_eq_imm_iff v).trans (imm_wf_iff v)⟩

/-- Settles O6: bits 11:8 of a word are the number of its range. -/
theorem decodeByWordRange : Obligations.DecodeByWordRange := fun _ =>
  ⟨fun hhigh => decode_of_opRange (k := 0) (by decide) (Nat.zero_le _) hhigh,
    decode_of_opRange (k := 1) (by decide), decode_of_opRange (k := 2) (by decide),
    decode_of_opRange (k := 3) (by decide), decode_of_opRange (k := 4) (by decide),
    decode_of_opRange (k := 5) (by decide), decode_of_opRange (k := 6) (by decide),
    decode_of_opRange (k := 7) (by decide), decode_of_immRange⟩

/-- Settles O8: an OP-format word is decoded by its opcode field alone. -/
theorem unusedBitsDoNotDecode : Obligations.UnusedBitsDoNotDecode := by
  intro w w' h h' hop
  rw [decode_of_opFormat h, decode_of_opFormat h']
  exact congrArg decodeOp hop

/-- Settles O9, by running the decoder on the ten words. -/
theorem sampleWordsDecode : Obligations.SampleWordsDecode := by
  unfold Obligations.SampleWordsDecode
  decide

end Sys2Proof

/-! Proofs about the sequencer (spec/40_sequencer.md R81, R83-R85): a step in RUN as a fetch and then the execute part of
the fetched word. -/

namespace Sys2Proof.Machine

/-! ### The execute part -/

/-- Every instruction has a meaning in every state, the Invalid ones included (notes/assumptions/1.md): `exec_setMem` with
the memory the state has already. -/
theorem exec_answers_next (i : Instr) (s : State) : ∃ t, exec i s = .next t := by
  obtain ⟨t, -, h, -⟩ := exec_setMem i s s.mem fun _ => rfl
  exact ⟨t, h⟩

/-- No execute part writes `i` (R24). -/
theorem exec_keeps_i {i : Instr} {s t : State} (h : exec i s = .next t) : t.i = s.i := by
  rcases exec_next_cases h with ⟨-, -, rfl⟩ | ⟨-, -, rfl⟩ | ⟨-, -, rfl⟩ | ⟨-, rfl⟩ | ⟨-, rfl⟩ | ⟨-, rfl⟩ | ⟨-, rfl⟩ |
    ⟨-, rfl⟩ | ⟨-, rfl⟩ | ⟨-, rfl⟩
  all_goals rfl

/-! ### The step in RUN -/

/-- R81: a step in RUN executes the word at `p`, decoded, on the fetched state. -/
theorem step_eq_exec_fetch {s : State} (hrun : s.run = .running) :
    step s = exec (decode (s.mem.read s.p)) (fetch s) := by
  rw [step_of_running hrun, oneStep, fetch_i]

/-! ### The obligations -/

/-- Settles O21: the decoder gives back the instruction whose encoding stands at `p`, and the state it runs on is the
fetched one. -/
theorem stepRunsDecodedInstruction : Obligations.StepRunsDecodedInstruction := by
  intro s i u hrun hwf hword
  have hdecode : decode (s.mem.read s.p) = i := by rw [hword, decode_encodeWith hwf]
  calc step s = exec (decode (s.mem.read s.p)) (fetch s) := step_eq_exec_fetch hrun
    _ = exec i (fetch s) := by rw [hdecode]

/-- Settles O22: the fetched state is `fetch s`; every execute part answers a next state from it and keeps its `i`. -/
theorem everyStepFetchesFirst : Obligations.EveryStepFetchesFirst := by
  intro s hrun
  have hstep : step s = exec (decode (fetch s).i) (fetch s) := step_eq_exec_fetch hrun
  obtain ⟨t, ht⟩ := exec_answers_next (decode (fetch s).i) (fetch s)
  exact ⟨fetch s, t, fetch_i s, nextP_toNat s.p, fetch_a s, fetch_x s, fetch_mem s, hrun,
    hstep, hstep.trans ht, exec_keeps_i ht, stepEvents_of_running hrun⟩

end Sys2Proof.Machine

/-! Proofs about the immediate load (spec/41_immediate.md R100): its words by mask and match, its effect and its frame. -/

namespace Sys2Proof

/-! ### Words by mask and match -/

/-- A word that matches under a mask has the match's bit wherever the mask's bit is set. -/
theorem getLsbD_of_masked {w mask val : Word} (h : w &&& mask = val) {j : Nat} (hj : mask.getLsbD j = true) :
    w.getLsbD j = val.getLsbD j := by
  rw [← h, BitVec.getLsbD_and, hj, Bool.and_true]

/-- R100: the words with mask 0x800 and match 0x800 are those of format IMM. -/
theorem immFlag_of_masked {w : Word} (h : w &&& 0x800#12 = 0x800#12) : immFlag w = true :=
  getLsbD_of_masked h (j := 11) rfl

end Sys2Proof

namespace Sys2Proof.Machine

/-! ### The obligation -/

/-- Settles O11: the mask's one bit is the format bit; the effect and frame are those of two register writes; and `x` is
kept by every other instruction. -/
theorem immediateLoadSavesOldAccumulator : Obligations.ImmediateLoadSavesOldAccumulator := by
  refine ⟨fun w h => ?_, fun v s => ?_, fun i s t h hi => exec_keeps_x h hi⟩
  · exact decode_of_immFormat (immFlag_of_masked h)
  · exact ⟨_, exec_imm v s, setA_x .., setA_a .., rfl, rfl, rfl, fun _ => rfl, execEvents_of_ne_store s nofun⟩

end Sys2Proof.Machine

/-! Proofs about the control transfer (spec/42_jump.md R110): the words of an OP-format instruction by mask and match, and
the effect and frame of a JUMP. -/

namespace Sys2Proof

/-! ### OP-format words by mask and match -/

/-- R64: the words with mask 0xF00 and, as match, the opcode above eight zeros are those of format OP with that opcode. -/
theorem decode_of_opMasked {w : Word} {op : BitVec 3} (h : w &&& 0xF00#12 = (0#1 ++ op) ++ 0#8) :
    decode w = decodeOp op := by
  have hbit : ∀ j < 4, w.getLsbD (8 + j) = (decide (j < 3) && op.getLsbD j) := by
    intro j hj
    have hmask : (0xF00#12).getLsbD (8 + j) = true := by simp [getLsbD_opMask (8 + j) (by omega)]
    rw [getLsbD_of_masked h hmask, getLsbD_opWord, if_neg (by omega), Nat.add_sub_cancel_left, getLsbD_opHead]
  have hflag : immFlag w = false := hbit 3 (by decide)
  have hop : opField w = op := by
    refine BitVec.eq_of_getLsbD_eq fun j hj => ?_
    rw [getLsbD_opField w hj, hbit j (by omega), decide_eq_true hj, Bool.true_and]
  rw [decode_of_opFormat hflag, hop]

end Sys2Proof

namespace Sys2Proof.Machine

/-! ### The obligation -/

/-- Settles O12: the match 0x000 is opcode 0; the two branches are the two register updates of a JUMP, read as numbers. -/
theorem jumpLinksOnNonNegativeX : Obligations.JumpLinksOnNonNegativeX := by
  refine ⟨fun w h => ?_, fun s hneg => ?_, fun s hnonneg => ?_, fun s => execEvents_of_ne_store s nofun⟩
  · exact decode_of_opMasked (op := 0#3) h
  · exact ⟨_, exec_jump_suppressed hneg, setA_a .., rfl, rfl, rfl, rfl, fun _ => rfl⟩
  · exact ⟨_, exec_jump_taken hnonneg, zext12_toNat s.p, lowAddr_toNat s.a, rfl, rfl, rfl, fun _ => rfl⟩

end Sys2Proof.Machine

/-! Proofs about the ALU and NoOp (spec/43_alu.md R120-R123): the subtract as integers, the NAND by bits, what the two
compose to, and the frames of their instructions. -/

namespace Sys2Proof.Machine

/-! ### The ALU's two operations -/

/-- R120 in the unsigned reading: the difference of the operands in the order `x - a`, modulo 4096. -/
theorem aluSub_toNat (x a : Word) : ((aluSub x a).toNat : Int) = ((x.toNat : Int) - (a.toNat : Int)) % 4096 := by
  have ha : a.toNat < 4096 := a.isLt
  rw [aluSub, BitVec.toNat_sub]
  omega

/-- R120 in the signed reading. -/
theorem aluSub_toInt (x a : Word) : (aluSub x a).toInt = (x.toInt - a.toInt).bmod 4096 := BitVec.toInt_sub

/-- R121: each of the 12 bits is the NAND of the operands' bits. -/
theorem getLsbD_aluNand (a x : Word) {n : Nat} (hn : n < 12) :
    (aluNand a x).getLsbD n = !(a.getLsbD n && x.getLsbD n) := by
  rw [aluNand, BitVec.getLsbD_not, BitVec.getLsbD_and, decide_eq_true hn, Bool.true_and]

/-- R123: subtracting the negation adds. -/
theorem aluSub_aluSub_zero (x a : Word) : aluSub x (aluSub 0#12 a) = x + a := by
  rw [aluSub, aluSub, BitVec.zero_sub, BitVec.sub_eq_add_neg, BitVec.neg_neg]

/-- R123: the NAND of a value with itself is its complement. -/
theorem aluNand_self (a : Word) : aluNand a a = ~~~a := by
  rw [aluNand, BitVec.and_self]

/-! ### The obligations -/

/-- Settles O13: the match 0x100 is opcode 1; SUB writes the ALU's difference to `a` and is no STORE. -/
theorem subtractsAccumulatorFromX : Obligations.SubtractsAccumulatorFromX := by
  refine ⟨fun w h => ?_, fun s => ?_⟩
  · exact decode_of_opMasked (op := 1#3) h
  · exact ⟨_, exec_sub s, aluSub_toNat s.x s.a, aluSub_toInt s.x s.a, rfl, rfl, rfl, rfl, fun _ => rfl,
      execEvents_of_ne_store s nofun⟩

/-- Settles O14: the match 0x200 is opcode 2; NAND writes the ALU's NAND to `a` and is no STORE. -/
theorem nandsEveryBit : Obligations.NandsEveryBit := by
  refine ⟨fun w h => ?_, fun s => ?_⟩
  · exact decode_of_opMasked (op := 2#3) h
  · exact ⟨_, exec_nand s, fun _ hn => getLsbD_aluNand s.a s.x hn, rfl, rfl, rfl, rfl, fun _ => rfl,
      execEvents_of_ne_store s nofun⟩

/-- Settles O15: the match 0x500 is opcode 5; NOP answers the state it is given, so a step of it answers the fetched
state. -/
theorem noOpOnlyFetches : Obligations.NoOpOnlyFetches := by
  refine ⟨fun w h => ?_, fun s => ?_, fun s hrun hnop => ?_⟩
  · exact decode_of_opMasked (op := 5#3) h
  · exact ⟨exec_nop s, execEvents_of_ne_store s nofun⟩
  · have hstep : step s = .next (fetch s) := by rw [step_eq_exec_fetch hrun, hnop, exec_nop]
    exact ⟨fetch s, hstep, nextP_toNat s.p, fetch_i s, fetch_a s, fetch_x s, hrun, fun _ => rfl⟩

/-- Settles O20, from the two compositions of the ALU's operations. -/
theorem additionAndNotFromTheAlu : Obligations.AdditionAndNotFromTheAlu := by
  intro a x
  refine ⟨?_, aluNand_self a⟩
  rw [aluSub_aluSub_zero, BitVec.toNat_add]

end Sys2Proof.Machine

/-! Proofs about memory access (spec/44_load_store.md R140, R141): the cell that FETCH and STORE address, their effects and
frames, and a STORE undone by a FETCH. -/

namespace Sys2Proof.Machine

/-! ### The addressed cell -/

/-- R42: the cell of a FETCH or a STORE is numbered `a mod 2048`. -/
theorem dataAddr_toNat (s : State) : (dataAddr s).toNat = s.a.toNat % 2048 := lowAddr_toNat s.a

/-- R42: no other cell has that number. -/
theorem eq_dataAddr_of_toNat {s : State} {k : Addr} (h : k.toNat = s.a.toNat % 2048) : k = dataAddr s :=
  BitVec.eq_of_toNat_eq (h.trans (dataAddr_toNat s).symm)

/-! ### The obligations -/

/-- Settles O16: the match 0x300 is opcode 3; the cell numbered `a mod 2048` is the one FETCH reads, and FETCH writes `a`
alone. -/
theorem fetchLoadsAddressedCell : Obligations.FetchLoadsAddressedCell := by
  refine ⟨fun w h => ?_, fun s => ?_⟩
  · exact decode_of_opMasked (op := 3#3) h
  · refine ⟨_, exec_fetch s, fun k hk => ?_, rfl, rfl, rfl, rfl, fun _ => rfl, execEvents_of_ne_store s nofun⟩
    rw [eq_dataAddr_of_toNat hk]
    exact setA_a ..

/-- Settles O17: the match 0x400 is opcode 4; STORE is one memory write, so its own cell and the others read as R43 says. -/
theorem storeWritesAddressedCellOnly : Obligations.StoreWritesAddressedCellOnly := by
  refine ⟨fun w h => ?_, fun s => ?_⟩
  · exact decode_of_opMasked (op := 4#3) h
  · have hown : (s.mem.write (dataAddr s) s.x).read (dataAddr s) = s.x := Memory.read_write_same ..
    have hother : ∀ k, k ≠ dataAddr s → (s.mem.write (dataAddr s) s.x).read k = s.mem.read k := fun _ hk =>
      Memory.read_write_other _ _ hk.symm
    exact ⟨_, exec_store s, dataAddr_toNat s, hown, hother, rfl, rfl, rfl, rfl, rfl, rfl⟩

/-- Settles O19: both instructions address the same cell, and a cell reads as the word just written to it. -/
theorem storeThenFetchRestoresValue : Obligations.StoreThenFetchRestoresValue := by
  intro s b hb
  refine ⟨_, _, exec_store s, exec_fetch _, ?_⟩
  calc (s.mem.write (lowAddr s.a) s.x).read (lowAddr b)
      = (s.mem.write (lowAddr s.a) s.x).read (lowAddr s.a) := by rw [lowAddr_congr hb]
    _ = s.x := Memory.read_write_same ..

end Sys2Proof.Machine

/-! Proofs about exceptions (spec/60_exceptions.md R160, R161): no request leaves the machine without a next state, the step
that takes InvalidOpcode and the step requests after it included (notes/assumptions/1.md, D3). -/

namespace Sys2Proof.Machine

/-! ### What a step and a request answer -/

/-- In RUN by the execute part's next state, in FAULTED by the state itself (R82). -/
theorem step_answers_next (s : State) : ∃ t, step s = .next t := by
  cases hrun : s.run with
  | running =>
    rw [step_eq_exec_fetch hrun]
    exact exec_answers_next ..
  | faulted info => exact ⟨s, step_of_faulted hrun⟩

theorem request_answers_next (r : Request) (s : State) : ∃ t, r.apply s = .next t := by
  cases r with
  | reset image => exact ⟨State.resetWith image, rfl⟩
  | step => exact step_answers_next s

/-! ### The obligation -/

/-- Settles O27, by induction on the requests: each answers a next state, from which the rest run on. -/
theorem everyRequestAnswersNextState : Obligations.EveryRequestAnswersNextState := by
  intro rs
  induction rs with
  | nil => exact fun s => ⟨s, rfl⟩
  | cons r rs ih =>
    intro s
    obtain ⟨t, ht⟩ := request_answers_next r s
    rw [runRequests_cons ht]
    exact ih t

end Sys2Proof.Machine

/-! Proofs about reset (spec/70_reset_and_hazards.md R181, R182): the first step after a reset, from any image. -/

namespace Sys2Proof.Machine

/-! ### The first fetch after a reset -/

/-- R181: `p` is 0, so the word fetched is the image's first, zero for an empty image. -/
theorem fetch_resetWith_i (image : List Word) : (fetch (State.resetWith image)).i = image.getD 0 0#12 :=
  Memory.read_ofImage image 0#11

theorem fetch_resetWith (image : List Word) :
    fetch (State.resetWith image) = { State.resetWith image with i := image.getD 0 0#12, p := 1#11 } :=
  State.ext_fields rfl rfl rfl (fetch_resetWith_i image) rfl rfl

/-- R181: the first step executes the image's first word, decoded, on the fetched state. -/
theorem step_resetWith (image : List Word) :
    step (State.resetWith image) = exec (decode (image.getD 0 0#12)) (fetch (State.resetWith image)) := by
  rw [step_of_running (resetWith_run image), oneStep, fetch_resetWith_i]

/-! ### The obligations -/

/-- Settles O3: the fetched word and state are those of `step_resetWith` and `fetch_resetWith`; a step in RUN emits its
fetch's event first. -/
theorem firstStepFetchesCellZero : Obligations.FirstStepFetchesCellZero := by
  intro image
  constructor
  · rw [step_resetWith, fetch_resetWith]
  · rw [stepEvents_of_running (resetWith_run image), List.head?_cons, fetchEvent, resetWith_p]

/-- Settles O4: `x` is 0 after a reset, so the JUMP is taken, to the address in `a`, which is 0, with the advanced `p`, which
is 1, as the link. -/
theorem jumpRightAfterResetGoesToZero : Obligations.JumpRightAfterResetGoesToZero := by
  intro image hjump
  have hdecode : decode (image.getD 0 0#12) = .jump := decode_of_opRange (k := 0) (by omega) (by omega) (by omega)
  have hx : (fetch (State.resetWith image)).x.getLsbD 11 = false := by
    rw [fetch_x, resetWith_x, BitVec.getLsbD_zero]
  have hstep := step_resetWith image
  rw [hdecode, exec_jump_taken hx] at hstep
  exact ⟨_, hstep, rfl, rfl, rfl, rfl⟩

end Sys2Proof.Machine

/-! Proofs about the refinement of the spec's integer pseudocode (spec/40_sequencer.md R81, R82, R89): a step over bit
vectors and a step over natural numbers answer the same integers and the same events. -/

namespace Sys2Proof

open Sys2Proof.Laws

/-! ### Words as the pseudocode reads them -/

/-- R61: the pseudocode's test of bit 11, which is also Jump's test of `x` (R110). -/
theorem div_2048_eq_one_iff (w : Word) : w.toNat / 2048 = 1 ↔ w.getLsbD 11 = true := by
  have hlt : w.toNat < 4096 := w.isLt
  change _ ↔ immFlag w = true
  rw [immFlag_eq_decide, decide_eq_true_iff]
  omega

/-- R65: the immediate as the pseudocode writes it. -/
theorem sext12_immField_toNat (w : Word) :
    (sext12 (immField w)).toNat = if w.toNat / 1024 % 2 = 1 then 2048 + w.toNat % 2048 else w.toNat % 2048 := by
  have hint := sext12_immField_toInt w
  have hlt : (sext12 (immField w)).toNat < 4096 := (sext12 (immField w)).isLt
  rw [BitVec.toInt_eq_toNat_cond] at hint
  split at hint <;> split at hint <;> split <;> omega

/-- R120: the subtract as the pseudocode writes it. -/
theorem sub_toNat (x a : Word) : (x - a).toNat = (x.toNat + 4096 - a.toNat) % 4096 := by
  have ha : a.toNat < 4096 := a.isLt
  rw [BitVec.toNat_sub]
  omega

/-- R162: the address that the fetched word came from, as a number. -/
theorem prevP_toNat (p : Addr) : (p - 1#11).toNat = (p.toNat + 2047) % 2048 := by
  rw [BitVec.toNat_sub, Nat.add_comm]
  rfl

/-- R64: the opcode map is one to one, so an instruction gives its opcode back. -/
theorem opcodeOf_decodeOp : ∀ op : BitVec 3, WordFields.opcodeOf (decodeOp op) = some op := by decide

end Sys2Proof

namespace Sys2Proof.Machine

open Sys2Proof.Laws Sys2Proof.Claims

/-! ### The updates of the state over integers -/

theorem intState_setP (s : State) (v : Addr) : intState (s.setP v) = { intState s with p := v.toNat } := rfl
theorem intState_setA (s : State) (v : Word) : intState (s.setA v) = { intState s with a := v.toNat } := rfl
theorem intState_setX (s : State) (v : Word) : intState (s.setX v) = { intState s with x := v.toNat } := rfl
theorem intState_setI (s : State) (v : Word) : intState (s.setI v) = { intState s with i := v.toNat } := rfl

theorem intState_raise (k : BitVec 3) (s : State) :
    intState (raiseInvalidOpcode k s) =
      { intState s with fault := some (1, k.toNat, s.i.toNat, (s.p - 1#11).toNat) } := rfl

/-- The integer cell of an address is the word it reads as. -/
theorem intState_M (s : State) (k : Addr) : (intState s).M k.toNat = (s.mem.read k).toNat := by
  have hk : k.toNat < 2048 := k.isLt
  simp [intState, hk]

/-- `MemWrite` over integers changes the one cell (R43). -/
theorem intState_memWrite (s : State) (k : Addr) (v : Word) :
    intState (s.memWrite k v) =
      { intState s with M := fun j => if j = k.toNat then v.toNat else (intState s).M j } := by
  have hM : (intState (s.memWrite k v)).M = fun j => if j = k.toNat then v.toNat else (intState s).M j := by
    funext j
    by_cases hj : j < 2048
    · obtain ⟨j, rfl⟩ : ∃ j' : Addr, j = j'.toNat := ⟨BitVec.ofNat 11 j, by simp; omega⟩
      rw [intState_M, intState_M, memWrite_mem, Memory.read_write, apply_ite BitVec.toNat]
      simp only [BitVec.toNat_inj, eq_comm]
    · have hk : j ≠ k.toNat := by have := k.isLt; omega
      simp [intState, hj, hk]
  rw [← hM]
  rfl

/-- R83 over integers: the first line of the pseudocode's step. -/
def intFetch (s : IntState) : IntState := { s with i := s.M s.p, p := (s.p + 1) % 2048 }

theorem intState_fetch (s : State) : intState (fetch s) = intFetch (intState s) := by
  rw [fetch, intState_setP, intState_setI, memRead_eq, nextP_toNat, ← intState_M]
  rfl

/-- Outside FAULTED there is no integer record. -/
theorem intState_fault_of_running {s : State} (hrun : s.run = .running) : (intState s).fault = none := by
  simp [intState, hrun]

theorem intState_fault_of_faulted {s : State} {info : FaultInfo} (hrun : s.run = .faulted info) :
    (intState s).fault = some (info.cause.code, info.opcode.toNat, info.word.toNat, info.addr.toNat) := by
  simp [intState, hrun]

/-! ### The execute part -/

/-- An IMM-format word: the pseudocode's first branch is the immediate load. -/
theorem intExecute_of_immFormat {f : State} (h : immFlag f.i = true) :
    intExecute (intState f) = (intState ((f.setX f.a).setA (sext12 (immField f.i))), []) := by
  have hbit : (intState f).i / 2048 = 1 := (div_2048_eq_one_iff f.i).2 h
  rw [intExecute, if_pos hbit, intState_setA, intState_setX, sext12_immField_toNat]
  rfl

/-- An OP-format word: the pseudocode's branch for its opcode is the execute part of the instruction of that opcode. -/
theorem intExecute_of_opFormat {f t : State} {i : Instr} {op : BitVec 3} (hflag : immFlag f.i = false)
    (hop : opField f.i = op) (hi : WordFields.opcodeOf i = some op) (h : exec i f = .next t) :
    intExecute (intState f) = (intState t, (execEvents i f).map intEvent) := by
  have hbit : ¬ (intState f).i / 2048 = 1 :=
    mt (div_2048_eq_one_iff f.i).1 (Bool.eq_false_iff.1 hflag)
  have hfield : (intState f).i / 256 % 8 = op.toNat := by rw [← hop]; exact (opField_toNat f.i).symm
  rw [intExecute, if_neg hbit, hfield]
  cases i with
  | imm v => cases hi
  | jump =>
    cases hi
    cases hx : f.x.getLsbD 11 with
    | true =>
      have hneg : (intState f).x / 2048 = 1 := (div_2048_eq_one_iff f.x).2 hx
      rw [exec_jump_suppressed hx] at h
      cases h
      exact Prod.ext (if_pos hneg) rfl
    | false =>
      have hnonneg : ¬ (intState f).x / 2048 = 1 :=
        mt (div_2048_eq_one_iff f.x).1 (Bool.eq_false_iff.1 hx)
      rw [exec_jump_taken hx] at h
      cases h
      rw [intState_setA, intState_setP, zext12_toNat, lowAddr_toNat]
      exact Prod.ext (if_neg hnonneg) rfl
  | sub =>
    cases hi; cases h
    rw [intState_setA, aluSub, sub_toNat]
    rfl
  | nand =>
    cases hi; cases h
    rw [intState_setA, aluNand, BitVec.toNat_not, BitVec.toNat_and]
    rfl
  | fetch =>
    cases hi; cases h
    rw [intState_setA, memRead_eq, ← intState_M, dataAddr_toNat]
    rfl
  | store =>
    cases hi; cases h
    rw [intState_memWrite, execEvents, List.map_singleton, intEvent, dataAddr_toNat]
    rfl
  | nop => cases hi; cases h; rfl
  | invalid6 =>
    cases hi; cases h
    rw [intState_raise, prevP_toNat]
    rfl
  | invalid7 =>
    cases hi; cases h
    rw [intState_raise, prevP_toNat]
    rfl

/-- The decoded word's execute part is the pseudocode's decode and execute, on the state after the fetch. -/
theorem intExecute_intState {f t : State} (h : exec (decode f.i) f = .next t) :
    intExecute (intState f) = (intState t, (execEvents (decode f.i) f).map intEvent) := by
  cases hflag : immFlag f.i with
  | true =>
    rw [decode_of_immFormat hflag, exec_imm] at h
    cases h
    rw [intExecute_of_immFormat hflag, decode_of_immFormat hflag]
    rfl
  | false =>
    rw [decode_of_opFormat hflag] at h ⊢
    exact intExecute_of_opFormat hflag rfl (opcodeOf_decodeOp _) h

/-! ### The step and the run -/

/-- R81: with no record, the pseudocode fetches and then executes. -/
theorem intStep_of_fault_none {s : IntState} (h : s.fault = none) :
    intStep s = ((intExecute (intFetch s)).1, .fetch s.p :: (intExecute (intFetch s)).2) := by
  cases s
  cases h
  rfl

/-- One step request: the same integers and the same events (R81, R82). -/
theorem intStep_intState {s t : State} (h : step s = .next t) :
    intStep (intState s) = (intState t, (stepEvents s).map intEvent) := by
  obtain ⟨info, hrun, rfl⟩ | ⟨hrun, hexec⟩ := step_next_cases h
  · rw [stepEvents_of_faulted hrun, intStep, intState_fault_of_faulted hrun]
    rfl
  · rw [stepEvents_of_running hrun, intStep_of_fault_none (intState_fault_of_running hrun), ← intState_fetch,
      intExecute_intState (f := fetch s) hexec]
    rfl

/-- Settles O29, by induction on the number of steps: the step requests commute with the reading of a state as integers. -/
theorem stepsRefineIntegerPseudocode : Obligations.StepsRefineIntegerPseudocode := by
  intro n
  induction n with
  | zero => exact fun s => ⟨s, rfl, rfl, rfl⟩
  | succ n ih =>
    intro s
    obtain ⟨u, hstep⟩ := step_answers_next s
    obtain ⟨t, hrest, hstate, htrace⟩ := ih u
    refine ⟨t, (runSteps_succ hstep n).trans hrest, ?_, ?_⟩
    · rw [intRun, intStep_intState hstep]
      exact hstate
    · rw [traceSteps_succ hstep, List.map_append, htrace, intRun, intStep_intState hstep]

end Sys2Proof.Machine

/-! Proofs about the exception (spec/60_exceptions.md R161-R164, with D3 and D4): which words raise InvalidOpcode, the fault
they leave, and what a machine in FAULTED still does. -/

namespace Sys2Proof

/-! ### The Invalid instructions and their words -/

/-- `i` is the Invalid instruction whose opcode is `k`: `Invalid(k)` of R66. -/
def IsInvalid (i : Instr) (k : BitVec 3) : Prop := i = .invalid6 ∧ k = 6#3 ∨ i = .invalid7 ∧ k = 7#3

theorem decodeOp_isInvalid_iff : ∀ op k : BitVec 3, IsInvalid (decodeOp op) k ↔ op = k ∧ (k = 6#3 ∨ k = 7#3) := by
  unfold IsInvalid
  decide

/-- Format IMM has no Invalid word (R67). -/
theorem not_isInvalid_imm (v : Word) (k : BitVec 3) : ¬ IsInvalid (.imm v) k := by simp [IsInvalid]

theorem IsInvalid.ne_store {i : Instr} {k : BitVec 3} (h : IsInvalid i k) : i ≠ .store := by
  rcases h with ⟨rfl, -⟩ | ⟨rfl, -⟩ <;> exact nofun

/-- The words that decode to `Invalid(k)` are those of format OP with the opcode field `k`, which is 6 or 7 (R64). -/
theorem decode_isInvalid_iff (w : Word) (k : BitVec 3) :
    IsInvalid (decode w) k ↔ immFlag w = false ∧ opField w = k ∧ (k = 6#3 ∨ k = 7#3) := by
  cases h : immFlag w with
  | true => simp [decode_of_immFormat h, not_isInvalid_imm]
  | false => simp [decode_of_opFormat h, decodeOp_isInvalid_iff]

/-- R67: the illegal words are 0x600-0x7FF. -/
def IllegalWord (w : Word) : Prop := 0x600 ≤ w.toNat ∧ w.toNat ≤ 0x7FF

/-- A word in 0x600..0x7FF decodes to `Invalid(k)` for its opcode field `k`. -/
theorem IllegalWord.isInvalid {w : Word} (h : IllegalWord w) :
    IsInvalid (decode w) (BitVec.ofNat 3 (w.toNat / 256)) := by
  obtain ⟨hlow, hhigh⟩ := h
  rw [decode_isInvalid_iff, immFlag_eq_decide]
  refine ⟨decide_eq_false (by omega), ?_, ?_⟩
  · apply BitVec.eq_of_toNat_eq
    rw [opField_toNat, BitVec.toNat_ofNat]
  · obtain h6 | h7 : w.toNat / 256 = 6 ∨ w.toNat / 256 = 7 := by omega
    · exact .inl (by rw [h6])
    · exact .inr (by rw [h7])

/-- No other word does. -/
theorem IsInvalid.illegalWord {w : Word} {k : BitVec 3} (h : IsInvalid (decode w) k) : IllegalWord w := by
  obtain ⟨hflag, hop, hk⟩ := (decode_isInvalid_iff w k).1 h
  rw [immFlag_eq_decide, decide_eq_false_iff_not] at hflag
  have hfield := opField_toNat w
  rw [hop] at hfield
  rcases hk with rfl | rfl <;> simp only [BitVec.toNat_ofNat] at hfield <;> constructor <;> omega

end Sys2Proof

namespace Sys2Proof.Machine

/-! ### What an execute part and a step do to the run state -/

theorem exec_of_isInvalid {i : Instr} {k : BitVec 3} (hi : IsInvalid i k) (s : State) :
    exec i s = .next (raiseInvalidOpcode k s) := by
  obtain ⟨rfl, rfl⟩ | ⟨rfl, rfl⟩ := hi
  · exact exec_invalid6 s
  · exact exec_invalid7 s

/-- Either an execute part keeps the run state or it is `Invalid(k)` and takes the exception (R160, R161). -/
theorem exec_keeps_run_or_raises {i : Instr} {s t : State} (h : exec i s = .next t) :
    ((∀ k, ¬ IsInvalid i k) ∧ t.run = s.run) ∨ ∃ k, IsInvalid i k ∧ t = raiseInvalidOpcode k s := by
  rcases exec_next_cases h with ⟨-, rfl, rfl⟩ | ⟨rfl, -, rfl⟩ | ⟨rfl, -, rfl⟩ | ⟨rfl, rfl⟩ | ⟨rfl, rfl⟩ | ⟨rfl, rfl⟩ |
    ⟨rfl, rfl⟩ | ⟨rfl, rfl⟩ | ⟨rfl, rfl⟩ | ⟨rfl, rfl⟩
  case inr.inr.inr.inr.inr.inr.inr.inr.inl => exact .inr ⟨6#3, .inl ⟨rfl, rfl⟩, rfl⟩
  case inr.inr.inr.inr.inr.inr.inr.inr.inr => exact .inr ⟨7#3, .inr ⟨rfl, rfl⟩, rfl⟩
  all_goals exact .inl ⟨fun k => by simp [IsInvalid], rfl⟩

/-- A step of an illegal word takes the exception on the fetched state. -/
theorem step_of_illegalWord {s : State} (hrun : s.run = .running) (hw : IllegalWord (s.mem.read s.p)) :
    step s = .next (raiseInvalidOpcode (BitVec.ofNat 3 ((s.mem.read s.p).toNat / 256)) (fetch s)) := by
  rw [step_eq_exec_fetch hrun, exec_of_isInvalid hw.isInvalid]

/-- A step in RUN stays there exactly if its word is none of 0x600-0x7FF (R67). -/
theorem step_running_iff {s t : State} (hrun : s.run = .running) (h : step s = .next t) :
    t.run = .running ↔ ¬ IllegalWord (s.mem.read s.p) := by
  constructor
  · intro ht hw
    rw [step_of_illegalWord hrun hw] at h
    cases h
    exact nomatch ht
  · intro hw
    rw [step_eq_exec_fetch hrun] at h
    obtain ⟨-, hkeep⟩ | ⟨k, hk, -⟩ := exec_keeps_run_or_raises h
    · exact hkeep.trans hrun
    · exact absurd hk.illegalWord hw

/-! ### What the machine in FAULTED does -/

/-- Settles O23: R82 for one request. -/
theorem faultedStepHasNoEffect : Obligations.FaultedStepHasNoEffect := fun _ _ hrun =>
  ⟨step_of_faulted hrun, stepEvents_of_faulted hrun⟩

/-- Settles O24, by induction on the requests: each is a step request, which keeps the FAULTED state and emits nothing. -/
theorem onlyResetLeavesFaulted : Obligations.OnlyResetLeavesFaulted := by
  refine ⟨fun rs s info hrun => ?_, fun image s => ⟨State.resetWith image, rfl, resetWith_run image⟩⟩
  obtain ⟨hstep, hevents⟩ := faultedStepHasNoEffect s info hrun
  induction rs with
  | nil => exact fun _ => ⟨rfl, rfl⟩
  | cons r rs ih =>
    intro hno
    cases r with
    | reset image => exact absurd List.mem_cons_self (hno image)
    | step =>
      have happly : Request.apply .step s = .next s := hstep
      have hnothing : Request.events .step s = [] := hevents
      rw [runRequests_cons happly, traceRequests_cons happly, hnothing]
      exact ih fun image hmem => hno image (List.mem_cons_of_mem _ hmem)

/-! ### The exception -/

/-- Settles O18: the matches 0x600 and 0x700 are opcodes 6 and 7; the record is the one `raiseInvalidOpcode` makes. -/
theorem invalidEntersFaultedWithRecord : Obligations.InvalidEntersFaultedWithRecord := by
  refine ⟨fun w h => ?_, fun w h => ?_, fun s k i (hi : IsInvalid i k) => ?_⟩
  · exact decode_of_opMasked (op := 6#3) h
  · exact decode_of_opMasked (op := 7#3) h
  · exact ⟨_, _, exec_of_isInvalid hi s, raise_run k s, rfl, rfl, rfl, prevP_toNat s.p, rfl, rfl, rfl, rfl, fun _ => rfl,
      execEvents_of_ne_store s hi.ne_store⟩

/-- Settles O25: an illegal word's step takes the exception, which keeps `a`, `x` and memory; any other stays in RUN. -/
theorem exactlyInvalidWordsAreFatal : Obligations.ExactlyInvalidWordsAreFatal := by
  intro s hrun
  obtain ⟨t, hstep⟩ := step_answers_next s
  have hfatal : t.run ≠ .running ↔ IllegalWord (s.mem.read s.p) := not_iff_comm.1 (step_running_iff hrun hstep).symm
  refine ⟨t, hstep, hfatal, fun ht => ?_⟩
  rw [step_of_illegalWord hrun (hfatal.1 ht)] at hstep
  cases hstep
  exact ⟨rfl, rfl, fun _ => rfl⟩

/-- Settles O26: the exception is taken on the fetched state, whose `p` is one past the word's address. -/
theorem faultIsPrecise : Obligations.FaultIsPrecise := by
  rintro s _ hrun rfl hlow hhigh
  have hw : IllegalWord (s.mem.read s.p) := ⟨hlow, hhigh⟩
  have haddr : s.p + 1#11 - 1#11 = s.p := BitVec.add_sub_cancel s.p 1#11
  refine ⟨_, step_of_illegalWord hrun hw, ?_, rfl, nextP_toNat s.p, rfl, rfl, fun _ => rfl, ?_⟩
  · rw [raise_run, fetch_p, haddr, fetch_i]
  · rw [stepEvents_of_running hrun, fetch_i, execEvents_of_ne_store _ hw.isInvalid.ne_store, fetchEvent]

/-! ### The events of a step -/

/-- Settles O28: no instruction but a STORE emits an event of its own, and a STORE's names the cell that it wrote. -/
theorem eventsOfAStep : Obligations.EventsOfAStep := by
  intro s t hstep
  refine ⟨fun hrun => ?_, fun hrun hs => ?_, fun hrun hs => ?_⟩
  · obtain ⟨info, hfaulted, -⟩ | ⟨hrun', -⟩ := step_next_cases hstep
    · exact stepEvents_of_faulted hfaulted
    · exact absurd hrun' hrun
  · rw [stepEvents_of_running hrun, fetch_i, execEvents_of_ne_store _ hs, fetchEvent]
  · rw [step_of_store hrun hs] at hstep
    cases hstep
    refine ⟨dataAddr s, dataAddr_toNat s, ?_, Memory.read_write_same ..⟩
    rw [stepEvents_of_running hrun, fetch_i, hs]
    rfl

/-! ### Safe runs -/

/-- A safe run of one step and more: RUN now, and a safe run from the step's next state. -/
theorem safeFor_succ_iff {s t : State} (h : step s = .next t) (n : Nat) :
    SafeFor (n + 1) s ↔ s.isRunning ∧ SafeFor n t := by
  simp only [SafeFor, ← Nat.lt_succ_iff]
  rw [Nat.forall_lt_succ_left]
  simp [runSteps_zero, runSteps_succ h]

/-- A safe run begins in RUN. -/
theorem SafeFor.isRunning {n : Nat} {s : State} (h : SafeFor n s) : s.isRunning := by
  obtain ⟨t, ht, hrun⟩ := h 0 n.zero_le
  cases ht
  exact hrun

/-- Before each of `n` step requests from `s` the word at `p` is legal. -/
def MeetsNoIllegalWord (n : Nat) (s : State) : Prop :=
  ∀ k < n, ∀ t, runSteps k s = .next t → ¬ IllegalWord (t.mem.read t.p)

theorem meetsNoIllegalWord_succ_iff {s t : State} (h : step s = .next t) (n : Nat) :
    MeetsNoIllegalWord (n + 1) s ↔ ¬ IllegalWord (s.mem.read s.p) ∧ MeetsNoIllegalWord n t := by
  rw [MeetsNoIllegalWord, Nat.forall_lt_succ_left]
  simp [MeetsNoIllegalWord, runSteps_zero, runSteps_succ h]

/-- Settles O41, by induction on the number of steps: the first step stays in RUN exactly if its word is legal. -/
theorem safeRunMeetsNoInvalidWord : Obligations.SafeRunMeetsNoInvalidWord := by
  intro n
  change ∀ s : State, s.isRunning → (SafeFor n s ↔ MeetsNoIllegalWord n s)
  induction n with
  | zero =>
    exact fun s hrun => ⟨fun _ _ hk => absurd hk (Nat.not_lt_zero _),
      fun _ k hk => ⟨s, by rw [Nat.le_zero.1 hk, runSteps_zero], hrun⟩⟩
  | succ n ih =>
    intro s hrun
    obtain ⟨t, hstep⟩ := step_answers_next s
    calc SafeFor (n + 1) s ↔ SafeFor n t := by rw [safeFor_succ_iff hstep, and_iff_right hrun]
      _ ↔ t.isRunning ∧ SafeFor n t := (and_iff_right_of_imp SafeFor.isRunning).symm
      _ ↔ t.isRunning ∧ MeetsNoIllegalWord n t := and_congr_right (ih t)
      _ ↔ ¬ IllegalWord (s.mem.read s.p) ∧ MeetsNoIllegalWord n t := and_congr_left' (step_running_iff hrun hstep)
      _ ↔ MeetsNoIllegalWord (n + 1) s := (meetsNoIllegalWord_succ_iff hstep n).symm

end Sys2Proof.Machine

/-! Proofs about the invariant (spec/20_memory.md R40, R48; spec/60_exceptions.md R162): the canonical form of memory is
unique, and reset and every step keep it, with a true fault record. -/

namespace Sys2Proof.Machine

/-! ### Canonical memories as the words they read as -/

/-- A cell listed among rising addresses reads as its word. -/
theorem Memory.readCell_of_mem {m : Memory} (hm : m.Pairwise fun c d => c.1 < d.1) {c : Cell} (hc : c ∈ m) :
    Memory.readCell m c.1 = c.2 := by
  induction m with
  | nil => cases hc
  | cons d rest ih =>
    obtain ⟨hfirst, hrest⟩ := List.pairwise_cons.1 hm
    obtain rfl | hc := List.mem_cons.1 hc
    · simp [Memory.readCell]
    · have hne : d.1 ≠ c.1 := (hfirst c hc).ne
      rw [Memory.readCell, if_neg hne, ih hrest hc]

/-- A cell that does not read as zero is listed. -/
theorem Memory.mem_of_readCell_ne_zero {m : Memory} {k : Nat} (h : Memory.readCell m k ≠ 0#12) :
    (k, Memory.readCell m k) ∈ m := by
  induction m with
  | nil => exact absurd rfl h
  | cons d rest ih =>
    obtain ⟨j, w⟩ := d
    by_cases hj : j = k
    · simp [Memory.readCell, hj]
    · simp only [Memory.readCell, if_neg hj] at h ⊢
      exact List.mem_cons_of_mem _ (ih h)

/-- The cells of a canonical memory are exactly those that read as another word than zero. -/
theorem Memory.wf.mem_iff {m : Memory} (hm : m.wf) (c : Cell) :
    c ∈ m ↔ ∃ k : Addr, k.toNat = c.1 ∧ m.read k = c.2 ∧ c.2 ≠ 0#12 := by
  constructor
  · intro hc
    obtain ⟨hlt, hne⟩ := hm.2 c hc
    have hk : (BitVec.ofNat 11 c.1).toNat = c.1 := Nat.mod_eq_of_lt hlt
    exact ⟨BitVec.ofNat 11 c.1, hk, by rw [Memory.read, hk, Memory.readCell_of_mem hm.1 hc], hne⟩
  · obtain ⟨j, w⟩ := c
    rintro ⟨k, rfl, rfl, hne⟩
    exact Memory.mem_of_readCell_ne_zero hne

/-- Settles O32: two lists with rising addresses and the same cells are equal, and the cells are those that do not read as
zero. -/
theorem canonicalMemoriesReadAlikeAreEqual : Obligations.CanonicalMemoriesReadAlikeAreEqual := by
  intro m m' hm hm' hread
  have rising_asymm : Std.Asymm fun c d : Cell => c.1 < d.1 := ⟨fun _ _ h => h.not_gt⟩
  refine hm.1.eq_of_mem_iff hm'.1 fun {c} => ?_
  simp only [hm.mem_iff, hm'.mem_iff, hread]

/-! ### Reset and the image -/

/-- Settles O1: the fields of `State.resetWith`, and the reads of the image load. -/
theorem resetInitialisesEverything : Obligations.ResetInitialisesEverything := by
  intro image s
  refine ⟨State.resetWith image, rfl, rfl, rfl, rfl, rfl, rfl, Memory.read_ofImage image, ?_⟩
  rintro rfl
  rfl

/-- D6: a reduced image holds each integer modulo 4096, and zeros past its end. -/
theorem reduceImage_getD (ws : List Int) (k : Nat) :
    (((reduceImage ws).getD k 0#12).toNat : Int) = ws.getD k 0 % 4096 := by
  have hmap : (reduceImage ws).getD k (BitVec.ofInt 12 0) = BitVec.ofInt 12 (ws.getD k 0) := List.getD_map ..
  change (((reduceImage ws).getD k (BitVec.ofInt 12 0)).toNat : Int) = _
  rw [hmap, BitVec.toNat_ofInt]
  omega

/-- Settles O2: the image load's cells, and for the cut image that canonical memories with equal reads are equal. -/
theorem imageIntegersStoredModulo4096 : Obligations.ImageIntegersStoredModulo4096 := by
  intro ws
  have hcells : ∀ (ws : List Int) (k : Addr),
      (((Memory.ofImage (reduceImage ws)).read k).toNat : Int) = ws.getD k.toNat 0 % 4096 := by
    intro ws k
    rw [Memory.read_ofImage, reduceImage_getD]
  refine ⟨hcells ws, canonicalMemoriesReadAlikeAreEqual _ _ (Memory.ofImage_wf _) (Memory.ofImage_wf _) fun k => ?_⟩
  have hcut : (ws.take 2048).getD k.toNat 0 = ws.getD k.toNat 0 := by
    rw [List.getD_eq_getElem?_getD, List.getD_eq_getElem?_getD, List.getElem?_take_of_lt k.isLt]
  apply BitVec.eq_of_toNat_eq
  have h := hcells (ws.take 2048) k
  rw [hcut, ← hcells ws k] at h
  exact Int.ofNat_inj.1 h

/-! ### The invariant -/

/-- In RUN there is no record to be true of. -/
theorem State.recordTrue_of_running {s : State} (h : s.run = .running) : s.recordTrue := by
  simp [State.recordTrue, h]

/-- The record made after the fetch is true of a state whose `i` decodes to `Invalid(k)` (R162). -/
theorem raise_recordTrue {k : BitVec 3} {s : State} (h : IsInvalid (decode s.i) k) :
    (raiseInvalidOpcode k s).recordTrue := by
  obtain ⟨hflag, hop, hk⟩ := (decode_isInvalid_iff s.i k).1 h
  exact ⟨hk, hop.symm, hflag, rfl, rfl⟩

/-- An execute part keeps memory canonical: a STORE by one `MemWrite`, the others by leaving it alone. -/
theorem exec_keeps_mem_wf {i : Instr} {s t : State} (h : exec i s = .next t) (hm : s.mem.wf) : t.mem.wf := by
  by_cases hi : i = .store
  · subst hi
    rw [exec_store] at h
    cases h
    exact Memory.write_wf hm ..
  · rw [exec_keeps_mem h hi]
    exact hm

/-- Settles O31: an image load is canonical, and a reset enters RUN. -/
theorem invariantHoldsAtReset : Obligations.InvariantHoldsAtReset :=
  ⟨⟨Memory.nil_wf, trivial⟩, fun image => ⟨Memory.ofImage_wf image, trivial⟩⟩

/-- Settles O30: FAULTED is kept whole; in RUN either the step stays there or its word is Invalid and the record is the one
made of the fetched state. -/
theorem everyStepKeepsTheInvariant : Obligations.EveryStepKeepsTheInvariant := by
  intro s t hinv hstep
  obtain ⟨-, -, rfl⟩ | ⟨hrun, hexec⟩ := step_next_cases hstep
  · exact hinv
  refine ⟨exec_keeps_mem_wf hexec hinv.mem_wf, ?_⟩
  obtain ⟨-, hkeep⟩ | ⟨k, hk, rfl⟩ := exec_keeps_run_or_raises hexec
  · exact State.recordTrue_of_running (hkeep.trans hrun)
  · exact raise_recordTrue (s := fetch s) hk

end Sys2Proof.Machine

/-! Proofs about the spec's assembler (spec/30_encoding.md R69, D9, D14): the words that the mnemonics assemble to. -/

namespace Sys2Proof.Machine

/-! ### The word of an immediate load -/

/-- R69: `0x800 + (n mod 2048)` is the encoder's word of the load of `n`. -/
theorem immWord_eq_encode (n : Int) : 0x800#12 + BitVec.ofInt 12 (n % 2048) = encode (.imm (BitVec.ofInt 12 n)) := by
  apply BitVec.eq_of_toNat_eq
  have hword : (encode (.imm (BitVec.ofInt 12 n))).toNat = 2048 + (BitVec.ofInt 12 n).toNat % 2048 := by
    rw [encode, encodeWith, BitVec.toNat_append, BitVec.extractLsb'_toNat, ← Nat.shiftLeft_add_eq_or_of_lt (by omega)]
    rfl
  rw [hword, BitVec.toNat_add, BitVec.toNat_ofInt, BitVec.toNat_ofInt]
  simp only [BitVec.toNat_ofNat]
  omega

/-- R65: the integers that `IMM` takes are the values of well-formed immediates. -/
theorem imm_ofInt_wf {n : Int} (hlow : -1024 ≤ n) (hhigh : n ≤ 1023) : (Instr.imm (BitVec.ofInt 12 n)).wf = true := by
  rw [imm_wf_iff, BitVec.toNat_ofInt]
  omega

/-- An operand in -1024..1023 assembles to a word that decodes to its load. -/
theorem assembleOp_imm {prog : List AsmLine} {v : AsmOperand} {n : Int} (hv : operandValue prog v = some n)
    (hlow : -1024 ≤ n) (hhigh : n ≤ 1023) :
    ∃ w, assembleOp prog (.imm v) = some w ∧ decode w = .imm (BitVec.ofInt 12 n) := by
  refine ⟨0x800#12 + BitVec.ofInt 12 (n % 2048), by rw [assembleOp, hv, Option.map_some], ?_⟩
  rw [immWord_eq_encode, encode, decode_encodeWith (imm_ofInt_wf hlow hhigh)]

/-! ### The obligation -/

/-- Settles O10: integers and labels by the word of an immediate load, the rest by the encoder's own words. -/
theorem assemblerWordsDecodeToTheirMnemonics : Obligations.AssemblerWordsDecodeToTheirMnemonics := by
  intro prog
  refine ⟨fun n hlow hhigh => ?_, fun n hout => ?_, fun name k hlabel hk => ?_, rfl, rfl, rfl, rfl, rfl, rfl, fun w => ?_⟩
  · exact assembleOp_imm (if_pos ⟨hlow, hhigh⟩) hlow hhigh
  · have hrefused : operandValue prog (.value n) = none := if_neg (by omega)
    rw [assembleOp, hrefused, Option.map_none]
  · have hvalue : operandValue prog (.label name) = some (k : Int) := by
      rw [operandValue, hlabel, Option.bind_some, if_pos hk]
    rw [← BitVec.ofInt_natCast]
    exact assembleOp_imm hvalue (by omega) (by omega)
  · have hw : w.toNat ≤ 4095 := Nat.le_of_lt_succ w.isLt
    rw [assembleOp, if_pos hw, BitVec.ofNat_toNat, BitVec.setWidth_eq]

end Sys2Proof.Machine

/-! Proofs about the pseudo-instructions (spec/30_encoding.md R70, D17): their expansions run instruction by instruction. -/

namespace Sys2Proof.Machine

open Sys2Proof.Claims

/-! ### The operand of an expansion -/

/-- The address that a sign-extended operand names is the operand (R42, R70). -/
theorem lowAddr_sext12 (k : Addr) : lowAddr (sext12 k) = k := by
  refine BitVec.eq_of_getLsbD_eq fun j hj => ?_
  simp [lowAddr, getLsbD_sext12 k j (by omega), hj]

/-- An operand in 0..1023 stands for itself (R70). -/
theorem sext12_toNat_of_le {k : Addr} (hk : k.toNat ≤ 1023) : (sext12 k).toNat = k.toNat := by
  have hmsb : k.msb = false := by rw [BitVec.msb_eq_decide]; exact decide_eq_false (by omega)
  rw [sext12, BitVec.toNat_signExtend, hmsb]
  simp [Nat.mod_eq_of_lt (show k.toNat < 4096 by omega)]

/-! ### Steps of placed instructions -/

/-- The state after a whole step of an immediate load in RUN; the next four are those of a taken JUMP, a suppressed one, a
FETCH and a STORE. -/
def afterImm (v : Word) (s : State) : State := ((fetch s).setX s.a).setA v

def afterJump (s : State) : State := ((fetch s).setP (lowAddr s.a)).setA (zext12 (s.p + 1#11))

def afterNoJump (s : State) : State := (fetch s).setA s.x

def afterFetch (s : State) : State := (fetch s).setA (s.mem.read (lowAddr s.a))

def afterStore (s : State) : State := (fetch s).memWrite (lowAddr s.a) s.x

section
variable {s : State} {n : Nat} (hrun : s.run = .running)
include hrun

/-- A step in RUN, by the instruction at `p`, and the steps after it. -/
theorem runSteps_of_exec {t : State} {i : Instr} (hi : decode (s.mem.read s.p) = i)
    (h : exec i (fetch s) = .next t) : runSteps (n + 1) s = runSteps n t := by
  refine runSteps_succ ?_ n
  rw [step_eq_exec_fetch hrun, hi, h]

theorem runSteps_imm {v : Word} (hi : decode (s.mem.read s.p) = .imm v) :
    runSteps (n + 1) s = runSteps n (afterImm v s) := runSteps_of_exec hrun hi (exec_imm ..)

theorem runSteps_jump (hi : decode (s.mem.read s.p) = .jump) (hx : s.x.getLsbD 11 = false) :
    runSteps (n + 1) s = runSteps n (afterJump s) := runSteps_of_exec hrun hi (exec_jump_taken (s := fetch s) hx)

theorem runSteps_noJump (hi : decode (s.mem.read s.p) = .jump) (hx : s.x.getLsbD 11 = true) :
    runSteps (n + 1) s = runSteps n (afterNoJump s) :=
  runSteps_of_exec hrun hi (exec_jump_suppressed (s := fetch s) hx)

theorem runSteps_fetch (hi : decode (s.mem.read s.p) = .fetch) :
    runSteps (n + 1) s = runSteps n (afterFetch s) := runSteps_of_exec hrun hi (exec_fetch _)

theorem runSteps_store (hi : decode (s.mem.read s.p) = .store) :
    runSteps (n + 1) s = runSteps n (afterStore s) := runSteps_of_exec hrun hi (exec_store _)

end

/-- The address `n + 1` past `p`, by one more increment. -/
theorem add_nextP_toNat {p q : Addr} {n : Nat} (h : q.toNat = (p.toNat + n) % 2048) :
    (q + 1#11).toNat = (p.toNat + (n + 1)) % 2048 := by
  rw [nextP_toNat, h]
  omega

/-! ### The effects of the expansions -/

/-- R70, R111: two immediate loads leave 0 in `x` and the target in `a`, and the JUMP that follows is taken. GOTO and CALL
are both this expansion. -/
theorem goto_effects {s : State} {c : Addr} (hrun : s.run = .running)
    (hplaced : placedAt s.mem s.p (Pseudo.goto c).expand) :
    ∃ t, runSteps 3 s = .next t ∧ t.p = c ∧ t.a.toNat = (s.p.toNat + 3) % 2048 ∧ t.x = 0#12 ∧ t.run = .running ∧
      ∀ k, t.mem.read k = s.mem.read k := by
  obtain ⟨hzero, htarget, hjump, -⟩ := hplaced
  have hx : (0#12).getLsbD 11 = false := BitVec.getLsbD_zero
  have hend := calc runSteps 3 s
    _ = runSteps 2 (afterImm 0#12 s) := runSteps_imm hrun hzero
    _ = runSteps 1 (afterImm (sext12 c) (afterImm 0#12 s)) := runSteps_imm (s := afterImm 0#12 s) hrun htarget
    _ = .next (afterJump (afterImm (sext12 c) (afterImm 0#12 s))) := runSteps_jump hrun hjump hx
  refine ⟨_, hend, lowAddr_sext12 c, ?_, rfl, hrun, fun _ => rfl⟩
  exact (zext12_toNat _).trans (add_nextP_toNat (add_nextP_toNat (nextP_toNat s.p)))

/-- R70, R112: the immediate load leaves the old `a` in `x`, whose sign decides the JUMP. -/
theorem brnn_effects {s : State} {c : Addr} (hrun : s.run = .running)
    (hplaced : placedAt s.mem s.p (Pseudo.brnn c).expand) :
    ∃ t, runSteps 2 s = .next t ∧ t.x = s.a ∧ t.run = .running ∧ (∀ k, t.mem.read k = s.mem.read k) ∧
      (s.a.getLsbD 11 = false → t.p = c ∧ t.a.toNat = (s.p.toNat + 2) % 2048) ∧
      (s.a.getLsbD 11 = true → t.p.toNat = (s.p.toNat + 2) % 2048 ∧ t.a = s.a) := by
  obtain ⟨htarget, hjump, -⟩ := hplaced
  have hload : runSteps 2 s = runSteps 1 (afterImm (sext12 c) s) := runSteps_imm hrun htarget
  have hnext : (s.p + 1#11 + 1#11).toNat = (s.p.toNat + 2) % 2048 := add_nextP_toNat (nextP_toNat s.p)
  cases ha : s.a.getLsbD 11 with
  | false =>
    have hend := hload.trans (runSteps_jump hrun hjump ha)
    exact ⟨_, hend, rfl, hrun, fun _ => rfl, fun _ => ⟨lowAddr_sext12 c, (zext12_toNat _).trans hnext⟩, nofun⟩
  | true =>
    have hend := hload.trans (runSteps_noJump hrun hjump ha)
    exact ⟨_, hend, rfl, hrun, fun _ => rfl, nofun, fun _ => ⟨hnext, rfl⟩⟩

/-- R70: the operand's cell is loaded, with the old `a` in `x`. -/
theorem loadm_effects {s : State} {k : Addr} (hrun : s.run = .running)
    (hplaced : placedAt s.mem s.p (Pseudo.loadm k).expand) :
    ∃ t, runSteps 2 s = .next t ∧ t.x = s.a ∧ t.a = s.mem.read k ∧ t.p = s.p + 2#11 ∧ t.run = .running ∧
      ∀ j, t.mem.read j = s.mem.read j := by
  obtain ⟨haddr, hfetch, -⟩ := hplaced
  have hend := calc runSteps 2 s
    _ = runSteps 1 (afterImm (sext12 k) s) := runSteps_imm hrun haddr
    _ = .next (afterFetch (afterImm (sext12 k) s)) := runSteps_fetch hrun hfetch
  exact ⟨_, hend, rfl, congrArg s.mem.read (lowAddr_sext12 k), BitVec.add_assoc .., hrun, fun _ => rfl⟩

/-- R70: the old `a` is stored to the operand's cell alone. -/
theorem storem_effects {s : State} {k : Addr} (hk : k.toNat ≤ 1023) (hrun : s.run = .running)
    (hplaced : placedAt s.mem s.p (Pseudo.storem k).expand) :
    ∃ t, runSteps 2 s = .next t ∧ t.mem.read k = s.a ∧ t.x = s.a ∧ t.a.toNat = k.toNat ∧ t.p = s.p + 2#11 ∧
      t.run = .running ∧ ∀ j, j ≠ k → t.mem.read j = s.mem.read j := by
  obtain ⟨haddr, hstore, -⟩ := hplaced
  have hend := calc runSteps 2 s
    _ = runSteps 1 (afterImm (sext12 k) s) := runSteps_imm hrun haddr
    _ = .next (afterStore (afterImm (sext12 k) s)) := runSteps_store hrun hstore
  have hmem : (afterStore (afterImm (sext12 k) s)).mem = s.mem.write k s.a :=
    congrArg (s.mem.write · s.a) (lowAddr_sext12 k)
  refine ⟨_, hend, ?_, rfl, sext12_toNat_of_le hk, BitVec.add_assoc .., hrun, fun j hj => ?_⟩
  · rw [hmem, Memory.read_write_same]
  · rw [hmem, Memory.read_write_other _ _ hj.symm]

/-- R70: the operand's cell is loaded with 0 in `x`, so the JUMP to it is taken. -/
theorem ret_effects {s : State} {k : Addr} (hrun : s.run = .running)
    (hplaced : placedAt s.mem s.p (Pseudo.ret k).expand) :
    ∃ t, runSteps 4 s = .next t ∧ t.p.toNat = (s.mem.read k).toNat % 2048 ∧
      t.a.toNat = (s.p.toNat + 4) % 2048 ∧ t.x = 0#12 ∧ t.run = .running ∧ ∀ j, t.mem.read j = s.mem.read j := by
  obtain ⟨hzero, haddr, hfetch, hjump, -⟩ := hplaced
  have hx : (0#12).getLsbD 11 = false := BitVec.getLsbD_zero
  have hend := calc runSteps 4 s
    _ = runSteps 3 (afterImm 0#12 s) := runSteps_imm hrun hzero
    _ = runSteps 2 (afterImm (sext12 k) (afterImm 0#12 s)) := runSteps_imm (s := afterImm 0#12 s) hrun haddr
    _ = runSteps 1 (afterFetch (afterImm (sext12 k) (afterImm 0#12 s))) := runSteps_fetch hrun hfetch
    _ = .next (afterJump (afterFetch (afterImm (sext12 k) (afterImm 0#12 s)))) := runSteps_jump hrun hjump hx
  refine ⟨_, hend, ?_, ?_, rfl, hrun, fun _ => rfl⟩
  · calc (lowAddr (s.mem.read (lowAddr (sext12 k)))).toNat = (lowAddr (s.mem.read k)).toNat := by rw [lowAddr_sext12]
      _ = (s.mem.read k).toNat % 2048 := lowAddr_toNat _
  · exact (zext12_toNat _).trans (add_nextP_toNat (add_nextP_toNat (add_nextP_toNat (nextP_toNat s.p))))

/-! ### The obligations -/

/-- Settles O42: GOTO and CALL have one expansion; BRNN's JUMP is taken or suppressed by the sign of the old `a`. -/
theorem pseudoBranchEffects : Obligations.PseudoBranchEffects := by
  refine ⟨?_, fun s c hrun hplaced => brnn_effects hrun hplaced⟩
  rintro s c q (rfl | rfl) hrun hplaced <;> exact goto_effects hrun hplaced

/-- Settles O43, from the three expansions' effects; only STOREM, which leaves its operand in `a`, needs its range. -/
theorem pseudoMemoryEffects : Obligations.PseudoMemoryEffects :=
  ⟨fun _ _ _ hrun hplaced => loadm_effects hrun hplaced, fun _ _ hk hrun hplaced => storem_effects hk hrun hplaced,
    fun _ _ _ hrun hplaced => ret_effects hrun hplaced⟩

end Sys2Proof.Machine

/-! Proofs about the host's placing of a word (spec/40_sequencer.md R81; notes/assumptions/6.md). -/

namespace Sys2Proof.Machine

/-- Placing writes the cell that the next step fetches. -/
theorem placeWord_read_p (s : State) (nbits w : Nat) :
    (placeWord s nbits w).mem.read (placeWord s nbits w).p = BitVec.ofNat 12 (w % 2 ^ nbits) :=
  Memory.read_write_same ..

/-- A table word that is an instruction is below 4096 and decodes as the 12-bit word of its number. -/
theorem decodeTableWord_eq_some_iff {nbits w : Nat} {i : Instr} :
    decodeTableWord nbits w = some i ↔ w % 2 ^ nbits < 4096 ∧ decode (BitVec.ofNat 12 (w % 2 ^ nbits)) = i := by
  rw [decodeTableWord, Option.ite_none_right_eq_some, Option.some_inj]

/-- Settles O44: the fetched state of the state with the word placed; the placing writes the cell `p` alone and enters
RUN. -/
theorem placedWordRunsNext : Obligations.PlacedWordRunsNext := by
  intro s nbits w i htable
  obtain ⟨hlt, hdecode⟩ := decodeTableWord_eq_some_iff.1 htable
  have hword := placeWord_read_p s nbits w
  refine ⟨fetch (s.withFetchWord nbits w), ?_, ?_, rfl, rfl, rfl, rfl, rfl, fun k hk => ?_⟩
  · rw [step_eq_exec_fetch rfl, State.withFetchWord, hword, hdecode]
  · rw [fetch_i, State.withFetchWord, hword, BitVec.toNat_ofNat]
    exact Nat.mod_eq_of_lt hlt
  · exact Memory.read_write_other _ _ hk.symm

end Sys2Proof.Machine
